-- ==== Sys2Proof/Word.lean ====
section
/-! DEFINITION. The words of the machine: register cells, addresses and the pc are 32-bit patterns
(00_scope.md R9, R10), and an instruction's fields are patterns of their own widths
(30_encoding.md R91). -/

namespace Sys2Proof

/-- A 32-bit pattern: a register cell, an address, the pc, an instruction word (R9, R10).
`a + b` and `a - b` on it are modulo 2^32 (R13). -/
abbrev Word := BitVec 32

/-- One byte of Memory (R60). -/
abbrev Byte := BitVec 8

/-- A 5-bit register index, the fields rd, rs1 and rs2 (R31, R91). -/
abbrev RegIdx := BitVec 5

/-- The 7-bit opcode field (R91). -/
abbrev Opcode := BitVec 7

/-- The 3-bit funct3 field (R91). -/
abbrev Funct3 := BitVec 3

/-- The 7-bit funct7 field (R91). -/
abbrev Funct7 := BitVec 7

/-- `s32(v)`: the pattern read as a two's-complement integer (R12). -/
abbrev s32 (v : Word) : Int := v.toInt

/-- `u32(v)`: the pattern read as an unsigned integer (R12). -/
abbrev u32 (v : Word) : Nat := v.toNat

end Sys2Proof
end

