-- ==== Sys2Proof/Machine/Flags.lean ====
section
/-! DEFINITION. The core has no flags (10_state.md R41): a comparison is a truth value that SLTI and SLTIU
write as 0 or 1 and a branch decides on. These are all the comparisons there are (00_scope.md R13). -/

namespace Sys2Proof.Machine

/-- All 32 bits equal (44_branch.md R202, R203). -/
def equal (a b : Word) : Bool := a == b

/-- `a <s b` (R13): SLTI, BLT, BGE. -/
def lessSigned (a b : Word) : Bool := decide (s32 a < s32 b)

/-- `a <u b` (R13): SLTIU, BLTU, BGEU. -/
def lessUnsigned (a b : Word) : Bool := decide (u32 a < u32 b)

/-- A comparison's 0 or 1 result (41_immediate_alu.md R162, R163). -/
def truthWord (b : Bool) : Word := if b then 1 else 0

end Sys2Proof.Machine
end

