-- ==== Sys2Proof/Syntax.lean ====
section
/-! DEFINITION. The instructions (30_encoding.md R104, one constructor per row of the opcode table) and
the records of the decode unit (R90, R101). An immediate is the 32-bit pattern the decoder
materialises (R95 to R99). -/

namespace Sys2Proof

/-- The nineteen instructions of R104. Operands stand in the order the assembly text gives them
(R112), but for SW, whose operands stand in the order of R191: base, data, displacement. -/
inductive Instr where
  | add (rd rs1 rs2 : RegIdx)
  | sub (rd rs1 rs2 : RegIdx)
  | and (rd rs1 rs2 : RegIdx)
  | or (rd rs1 rs2 : RegIdx)
  | xor (rd rs1 rs2 : RegIdx)
  | addi (rd rs1 : RegIdx) (imm : Word)
  | slti (rd rs1 : RegIdx) (imm : Word)
  | sltiu (rd rs1 : RegIdx) (imm : Word)
  | lw (rd rs1 : RegIdx) (imm : Word)
  | sw (rs1 rs2 : RegIdx) (imm : Word)
  | beq (rs1 rs2 : RegIdx) (imm : Word)
  | bne (rs1 rs2 : RegIdx) (imm : Word)
  | blt (rs1 rs2 : RegIdx) (imm : Word)
  | bge (rs1 rs2 : RegIdx) (imm : Word)
  | bltu (rs1 rs2 : RegIdx) (imm : Word)
  | bgeu (rs1 rs2 : RegIdx) (imm : Word)
  | lui (rd : RegIdx) (imm : Word)
  | auipc (rd : RegIdx) (imm : Word)
  | jal (rd : RegIdx) (imm : Word)
  deriving DecidableEq, Repr

/-- The decoded record: a tagged variant over the six shapes, or the unsupported result. Each shape
carries the fields R101 gives it and no other. -/
inductive Record where
  | r (opcode : Opcode) (rd : RegIdx) (funct3 : Funct3) (rs1 rs2 : RegIdx) (funct7 : Funct7)
  | i (opcode : Opcode) (rd : RegIdx) (funct3 : Funct3) (rs1 : RegIdx) (imm : Word)
  | s (opcode : Opcode) (funct3 : Funct3) (rs1 rs2 : RegIdx) (imm : Word)
  | b (opcode : Opcode) (funct3 : Funct3) (rs1 rs2 : RegIdx) (imm : Word)
  | u (opcode : Opcode) (rd : RegIdx) (imm : Word)
  | j (opcode : Opcode) (rd : RegIdx) (imm : Word)
  | unsupported (opcode : Opcode)
  deriving DecidableEq, Repr

/-- What a word stands for once its funct fields have been looked at: one of the nineteen instructions,
or one of the two recoverable cases, by name (R104, R240, R241). -/
inductive Decoded where
  | instr (i : Instr)
  | unsupportedOpcode (opcode : Opcode)
  | unsupportedInstruction (opcode : Opcode)
  deriving DecidableEq, Repr

end Sys2Proof
end

