-- ==== Sys2Proof/WellFormed.lean ====
section
/-! DEFINITION. Which instructions and records have an encoding: the immediate ranges of 30_encoding.md
R103 and, for a record, an opcode of its shape (R93, R105). -/

namespace Sys2Proof

/-- I and S immediates: every integer in [-2048, 2047] (R103). -/
def immFits12 (imm : Word) : Bool := decide (-2048 ≤ s32 imm ∧ s32 imm ≤ 2047)

/-- B immediates: every even integer in [-4096, 4094] (R103). -/
def immFits13 (imm : Word) : Bool :=
  decide (-4096 ≤ s32 imm ∧ s32 imm ≤ 4094 ∧ s32 imm % 2 = 0)

/-- J immediates: every even integer in [-1048576, 1048574] (R103). -/
def immFits21 (imm : Word) : Bool :=
  decide (-1048576 ≤ s32 imm ∧ s32 imm ≤ 1048574 ∧ s32 imm % 2 = 0)

/-- U immediates: every pattern whose low 12 bits are zero (R103). -/
def immUpper (imm : Word) : Bool := decide (u32 imm % 4096 = 0)

/-- An instruction whose immediate its encoding admits. Register fields are 5 bits by their type. -/
def Instr.wf : Instr → Bool
  | .add _ _ _ | .sub _ _ _ | .and _ _ _ | .or _ _ _ | .xor _ _ _ => true
  | .addi _ _ imm | .slti _ _ imm | .sltiu _ _ imm | .lw _ _ imm | .sw _ _ imm => immFits12 imm
  | .beq _ _ imm | .bne _ _ imm | .blt _ _ imm | .bge _ _ imm | .bltu _ _ imm | .bgeu _ _ imm =>
    immFits13 imm
  | .lui _ imm | .auipc _ imm => immUpper imm
  | .jal _ imm => immFits21 imm

/-- A record `encode` has a word for (R105): its opcode is one of its shape's (R93) and its immediate is
in range (R103). The unsupported result has no fields to place and is not one of the six formats. -/
def Record.wf : Record → Bool
  | .r op _ _ _ _ _ => op == 0x33
  | .i op _ _ _ imm => (op == 0x13 || op == 0x03) && immFits12 imm
  | .s op _ _ _ imm => op == 0x23 && immFits12 imm
  | .b op _ _ _ imm => op == 0x63 && immFits13 imm
  | .u op _ imm => (op == 0x37 || op == 0x17) && immUpper imm
  | .j op _ imm => op == 0x6F && immFits21 imm
  | .unsupported _ => false

end Sys2Proof
end

