-- ==== Sys2Proof/Decode.lean ====
section
/-! DEFINITION. The decode unit and the selection by funct fields (30_encoding.md R90 to R111), and after
them the encoder (R105). Decoding is total over all 2^32 words (R102): a word is one of the nineteen
instructions, an unsupported opcode or an unsupported instruction, by name. -/

namespace Sys2Proof

/-! ### Fields -/

/-- `word[lo+len-1:lo]`: the field of `len` bits whose lowest bit is `lo` (00_scope.md R11). -/
def field (w : Word) (lo len : Nat) : BitVec len := w.extractLsb' lo len

/-- `sext_N` of a pattern already cut to its N bits: bit N-1 fills the bits above (R12). -/
def sext {n : Nat} (v : BitVec n) : Word := v.signExtend 32

/-- `opcode = word[6:0]` (R91). -/
def opcodeOf (w : Word) : Opcode := field w 0 7
/-- `rd = word[11:7]` (R91). -/
def rdOf (w : Word) : RegIdx := field w 7 5
/-- `funct3 = word[14:12]` (R91). -/
def funct3Of (w : Word) : Funct3 := field w 12 3
/-- `rs1 = word[19:15]` (R91). -/
def rs1Of (w : Word) : RegIdx := field w 15 5
/-- `rs2 = word[24:20]` (R91). -/
def rs2Of (w : Word) : RegIdx := field w 20 5
/-- `funct7 = word[31:25]` (R91). -/
def funct7Of (w : Word) : Funct7 := field w 25 7

/-- I: `imm = sext_12(word[31:20])` (R95). -/
def immI (w : Word) : Word := sext (field w 20 12)

/-- S: `imm = sext_12({word[31:25], word[11:7]})` (R96). -/
def immS (w : Word) : Word := sext (field w 25 7 ++ field w 7 5)

/-- B: `imm = sext_13({word[31], word[7], word[30:25], word[11:8], 0})` (R97, C1). -/
def immB (w : Word) : Word :=
  sext (field w 31 1 ++ field w 7 1 ++ field w 25 6 ++ field w 8 4 ++ 0#1)

/-- U: `imm = {word[31:12], 12'b0}` (R98, C2). -/
def immU (w : Word) : Word := field w 12 20 ++ 0#12

/-- J: `imm = sext_21({word[31], word[19:12], word[20], word[30:21], 0})` (R99, C1). -/
def immJ (w : Word) : Word :=
  sext (field w 31 1 ++ field w 12 8 ++ field w 20 1 ++ field w 21 10 ++ 0#1)

/-! ### The decode unit -/

/-- `decode(word)` of R90: the shape is a function of the opcode alone (R93), and the record carries the
fields of its shape (R94 to R101). -/
def decodeUnit (w : Word) : Record :=
  if opcodeOf w = 0x33 then .r (opcodeOf w) (rdOf w) (funct3Of w) (rs1Of w) (rs2Of w) (funct7Of w)
  else if opcodeOf w = 0x13 ∨ opcodeOf w = 0x03 then
    .i (opcodeOf w) (rdOf w) (funct3Of w) (rs1Of w) (immI w)
  else if opcodeOf w = 0x23 then .s (opcodeOf w) (funct3Of w) (rs1Of w) (rs2Of w) (immS w)
  else if opcodeOf w = 0x63 then .b (opcodeOf w) (funct3Of w) (rs1Of w) (rs2Of w) (immB w)
  else if opcodeOf w = 0x37 ∨ opcodeOf w = 0x17 then .u (opcodeOf w) (rdOf w) (immU w)
  else if opcodeOf w = 0x6F then .j (opcodeOf w) (rdOf w) (immJ w)
  else .unsupported (opcodeOf w)

/-! ### Selection by funct3 and funct7 -/

/-- R shape: the pair (funct3, funct7) selects (40_register_alu.md R140; funct7 = 0 for AND, OR and XOR
is the spec's decision D6, log entry 8). -/
def selectR (op : Opcode) (rd : RegIdx) (f3 : Funct3) (rs1 rs2 : RegIdx) (f7 : Funct7) : Decoded :=
  if f3 = 0x0 ∧ f7 = 0x00 then .instr (.add rd rs1 rs2)
  else if f3 = 0x0 ∧ f7 = 0x20 then .instr (.sub rd rs1 rs2)
  else if f3 = 0x7 ∧ f7 = 0x00 then .instr (.and rd rs1 rs2)
  else if f3 = 0x6 ∧ f7 = 0x00 then .instr (.or rd rs1 rs2)
  else if f3 = 0x4 ∧ f7 = 0x00 then .instr (.xor rd rs1 rs2)
  else .unsupportedInstruction op

/-- I shape, opcode 0x13: funct3 selects (41_immediate_alu.md R160). -/
def selectImmediateAlu (op : Opcode) (rd : RegIdx) (f3 : Funct3) (rs1 : RegIdx) (imm : Word) :
    Decoded :=
  if f3 = 0x0 then .instr (.addi rd rs1 imm)
  else if f3 = 0x2 then .instr (.slti rd rs1 imm)
  else if f3 = 0x3 then .instr (.sltiu rd rs1 imm)
  else .unsupportedInstruction op

/-- I shape, opcode 0x03: funct3 0x2 selects LW (42_load.md R180). -/
def selectLoad (op : Opcode) (rd : RegIdx) (f3 : Funct3) (rs1 : RegIdx) (imm : Word) : Decoded :=
  if f3 = 0x2 then .instr (.lw rd rs1 imm) else .unsupportedInstruction op

/-- S shape: funct3 0x2 selects SW (43_store.md R190). -/
def selectS (op : Opcode) (f3 : Funct3) (rs1 rs2 : RegIdx) (imm : Word) : Decoded :=
  if f3 = 0x2 then .instr (.sw rs1 rs2 imm) else .unsupportedInstruction op

/-- B shape: funct3 selects (44_branch.md R200). -/
def selectB (op : Opcode) (f3 : Funct3) (rs1 rs2 : RegIdx) (imm : Word) : Decoded :=
  if f3 = 0x0 then .instr (.beq rs1 rs2 imm)
  else if f3 = 0x1 then .instr (.bne rs1 rs2 imm)
  else if f3 = 0x4 then .instr (.blt rs1 rs2 imm)
  else if f3 = 0x5 then .instr (.bge rs1 rs2 imm)
  else if f3 = 0x6 then .instr (.bltu rs1 rs2 imm)
  else if f3 = 0x7 then .instr (.bgeu rs1 rs2 imm)
  else .unsupportedInstruction op

/-- The executor's dispatch "by format tag then by `funct3`/`funct7`" (48_fetch_execute.md R257, R261). -/
def select : Record → Decoded
  | .r op rd f3 rs1 rs2 f7 => selectR op rd f3 rs1 rs2 f7
  | .i op rd f3 rs1 imm =>
    if op = 0x03 then selectLoad op rd f3 rs1 imm else selectImmediateAlu op rd f3 rs1 imm
  | .s op f3 rs1 rs2 imm => selectS op f3 rs1 rs2 imm
  | .b op f3 rs1 rs2 imm => selectB op f3 rs1 rs2 imm
  | .u op rd imm => if op = 0x37 then .instr (.lui rd imm) else .instr (.auipc rd imm)
  | .j _ rd imm => .instr (.jal rd imm)
  | .unsupported op => .unsupportedOpcode op

/-- What a word stands for: the decode unit and then the selection. The halt word is tested for before
this is asked (R108). -/
def decode (w : Word) : Decoded := select (decodeUnit w)

/-! ### Words and bytes -/

/-- `{b3, b2, b1, b0}`: a word from four bytes, the first at the lowest address (20_memory.md R62). -/
def wordOfBytes (b0 b1 b2 b3 : Byte) : Word := b3 ++ b2 ++ b1 ++ b0

/-- The four bytes of a word, `v[7:0]` first, as they stand at rising addresses (20_memory.md R63). -/
def bytesOfWord (v : Word) : List Byte := [field v 0 8, field v 8 8, field v 16 8, field v 24 8]

/-- Decode the instruction at the head of a byte sequence, and what follows it. Every instruction takes
four bytes (R92), so fewer than four are no instruction word. -/
def decodeBytes : List Byte → Option (Decoded × List Byte)
  | b0 :: b1 :: b2 :: b3 :: rest => some (decode (wordOfBytes b0 b1 b2 b3), rest)
  | _ => none

/-- The instruction a decoding names, if it names one. -/
def Decoded.instr? : Decoded → Option Instr
  | .instr i => some i
  | .unsupportedOpcode _ => none
  | .unsupportedInstruction _ => none

/-- The instruction the decoder reads from an opcode-table row's bits: bit 0 of `w` is bit 0 of the word,
and every bit above `nbits` is 0. The word is laid out in its four little-endian bytes (R65) and decoded
from them. -/
def decodeTableWord (nbits w : Nat) : Option Instr :=
  match decodeBytes (bytesOfWord (BitVec.ofNat 32 (w % 2 ^ nbits))) with
  | some (d, _) => d.instr?
  | none => none

/-! ### The encoder -/

/-- R: `funct7[31:25] | rs2[24:20] | rs1[19:15] | funct3[14:12] | rd[11:7] | opcode[6:0]` (R94). -/
def packR (op : Opcode) (rd : RegIdx) (f3 : Funct3) (rs1 rs2 : RegIdx) (f7 : Funct7) : Word :=
  f7 ++ rs2 ++ rs1 ++ f3 ++ rd ++ op

/-- I: `imm[11:0] at [31:20] | rs1[19:15] | funct3[14:12] | rd[11:7] | opcode[6:0]` (R95). -/
def packI (op : Opcode) (rd : RegIdx) (f3 : Funct3) (rs1 : RegIdx) (imm : Word) : Word :=
  field imm 0 12 ++ rs1 ++ f3 ++ rd ++ op

/-- S: `imm[11:5] at [31:25] | rs2 | rs1 | funct3 | imm[4:0] at [11:7] | opcode` (R96). -/
def packS (op : Opcode) (f3 : Funct3) (rs1 rs2 : RegIdx) (imm : Word) : Word :=
  field imm 5 7 ++ rs2 ++ rs1 ++ f3 ++ field imm 0 5 ++ op

/-- B: `imm[12] at [31] | imm[10:5] at [30:25] | rs2 | rs1 | funct3 | imm[4:1] at [11:8] | imm[11] at [7] |
opcode` (R97). -/
def packB (op : Opcode) (f3 : Funct3) (rs1 rs2 : RegIdx) (imm : Word) : Word :=
  field imm 12 1 ++ field imm 5 6 ++ rs2 ++ rs1 ++ f3 ++ field imm 1 4 ++ field imm 11 1 ++ op

/-- U: `imm[31:12] at [31:12] | rd[11:7] | opcode[6:0]` (R98). -/
def packU (op : Opcode) (rd : RegIdx) (imm : Word) : Word := field imm 12 20 ++ rd ++ op

/-- J: `imm[20] at [31] | imm[10:1] at [30:21] | imm[11] at [20] | imm[19:12] at [19:12] | rd[11:7] |
opcode[6:0]` (R99). -/
def packJ (op : Opcode) (rd : RegIdx) (imm : Word) : Word :=
  field imm 20 1 ++ field imm 1 10 ++ field imm 11 1 ++ field imm 12 8 ++ rd ++ op

/-- `encode` of a record (R105). The unsupported result has no fields but its opcode, so its word is that
opcode with zeros above; it is no well-formed record. -/
def encodeRecord : Record → Word
  | .r op rd f3 rs1 rs2 f7 => packR op rd f3 rs1 rs2 f7
  | .i op rd f3 rs1 imm => packI op rd f3 rs1 imm
  | .s op f3 rs1 rs2 imm => packS op f3 rs1 rs2 imm
  | .b op f3 rs1 rs2 imm => packB op f3 rs1 rs2 imm
  | .u op rd imm => packU op rd imm
  | .j op rd imm => packJ op rd imm
  | .unsupported op => op.setWidth 32

/-- An instruction's record: its operands under the selectors of R104's opcode, funct3 and funct7
columns. -/
def Instr.record : Instr → Record
  | .add rd rs1 rs2 => .r 0x33 rd 0x0 rs1 rs2 0x00
  | .sub rd rs1 rs2 => .r 0x33 rd 0x0 rs1 rs2 0x20
  | .and rd rs1 rs2 => .r 0x33 rd 0x7 rs1 rs2 0x00
  | .or rd rs1 rs2 => .r 0x33 rd 0x6 rs1 rs2 0x00
  | .xor rd rs1 rs2 => .r 0x33 rd 0x4 rs1 rs2 0x00
  | .addi rd rs1 imm => .i 0x13 rd 0x0 rs1 imm
  | .slti rd rs1 imm => .i 0x13 rd 0x2 rs1 imm
  | .sltiu rd rs1 imm => .i 0x13 rd 0x3 rs1 imm
  | .lw rd rs1 imm => .i 0x03 rd 0x2 rs1 imm
  | .sw rs1 rs2 imm => .s 0x23 0x2 rs1 rs2 imm
  | .beq rs1 rs2 imm => .b 0x63 0x0 rs1 rs2 imm
  | .bne rs1 rs2 imm => .b 0x63 0x1 rs1 rs2 imm
  | .blt rs1 rs2 imm => .b 0x63 0x4 rs1 rs2 imm
  | .bge rs1 rs2 imm => .b 0x63 0x5 rs1 rs2 imm
  | .bltu rs1 rs2 imm => .b 0x63 0x6 rs1 rs2 imm
  | .bgeu rs1 rs2 imm => .b 0x63 0x7 rs1 rs2 imm
  | .lui rd imm => .u 0x37 rd imm
  | .auipc rd imm => .u 0x17 rd imm
  | .jal rd imm => .j 0x6F rd imm

/-- The word of an instruction (R105). -/
def encode (i : Instr) : Word := encodeRecord i.record

/-! ### The opcode table's match and mask -/

/-- R104's `mask` column: which bits of a word select the instruction. -/
def Instr.mask : Instr → Word
  | .add _ _ _ | .sub _ _ _ | .and _ _ _ | .or _ _ _ | .xor _ _ _ => 0xFE00707F
  | .addi _ _ _ | .slti _ _ _ | .sltiu _ _ _ | .lw _ _ _ | .sw _ _ _ => 0x0000707F
  | .beq _ _ _ | .bne _ _ _ | .blt _ _ _ | .bge _ _ _ | .bltu _ _ _ | .bgeu _ _ _ => 0x0000707F
  | .lui _ _ | .auipc _ _ | .jal _ _ => 0x0000007F

/-- R104's `match` column: what the selecting bits are. -/
def Instr.matchWord : Instr → Word
  | .add _ _ _ => 0x00000033
  | .sub _ _ _ => 0x40000033
  | .and _ _ _ => 0x00007033
  | .or _ _ _ => 0x00006033
  | .xor _ _ _ => 0x00004033
  | .addi _ _ _ => 0x00000013
  | .slti _ _ _ => 0x00002013
  | .sltiu _ _ _ => 0x00003013
  | .lw _ _ _ => 0x00002003
  | .sw _ _ _ => 0x00002023
  | .beq _ _ _ => 0x00000063
  | .bne _ _ _ => 0x00001063
  | .blt _ _ _ => 0x00004063
  | .bge _ _ _ => 0x00005063
  | .bltu _ _ _ => 0x00006063
  | .bgeu _ _ _ => 0x00007063
  | .lui _ _ => 0x00000037
  | .auipc _ _ => 0x00000017
  | .jal _ _ => 0x0000006F

end Sys2Proof
end

