-- ==== Sys2Proof/Config.lean ====
section
/-! DEFINITION. The parameters a core is built from (00_scope.md R9): CAPACITY and REG_INIT. The spec
leaves no result of an instruction undefined, so there is no free value here. -/

namespace Sys2Proof

/-- The construction parameters of R9. Both are OPEN in the spec (D2, D3). -/
structure Config where
  /-- CAPACITY, the number of bytes of Memory (R9, R60). -/
  capacity : Nat
  /-- REG_INIT: entry i is what xi holds at construction, for i in 1..31 (R50). Entry 0 is not used:
  x0 is 0 at construction. -/
  regInit : Vector Word 32
  deriving DecidableEq, Repr

/-- The constraint R9 puts on CAPACITY: a multiple of 4 with 4 <= CAPACITY <= 2^32 - 4. -/
abbrev capacityAllowed (c : Nat) : Prop := c % 4 = 0 ∧ 4 ≤ c ∧ c ≤ 2 ^ 32 - 4

/-- The instance behind `State.reset`: CAPACITY at the default of R9 (1 MiB), and REG_INIT zero in every
register. DESIGN CHOICE (log entries 3 and 4), unsafe: the spec leaves both open, so every statement
about construction is made for every `Config` instead. -/
def Config.reference : Config where
  capacity := 0x00100000
  regInit := Vector.replicate 32 0

end Sys2Proof
end

