-- ==== Sys2Proof/Machine/State.lean ====
section
/-! DEFINITION. The architectural state, exactly as 10_state.md R30 lists it: the register file, the pc,
the Memory and the controller status; its value at construction (R50); and the reasons a step may stop.
All of it is plain data. -/

namespace Sys2Proof.Machine

/-- The two fatal errors, the `kind` of a Faulted status (60_exceptions.md R281, codes 3 and 4). -/
inductive FatalKind where
  /-- A fetch, LW or SW whose four bytes are not all below CAPACITY. -/
  | memoryOutOfBounds
  /-- A fetch at a pc that is not a multiple of 4. -/
  | alignmentViolation
  deriving DecidableEq, Repr

/-- The controller status (10_state.md R43). -/
inductive Status where
  /-- Constructed, no run started. -/
  | idle
  /-- A run is in progress. -/
  | running
  /-- The run ended at the halt word. -/
  | halted
  /-- The run ended at a fatal error, with the recorded address (R281). -/
  | faulted (kind : FatalKind) (addr : Word)
  deriving DecidableEq, Repr

/-- Memory, `mem[0..CAPACITY-1]` (20_memory.md R60): its length, fixed at construction, and the bytes
that differ from 0x00, at rising addresses (`Memory.wf` in Ops.lean is the canonical form). -/
structure Memory where
  /-- CAPACITY (R9): a parameter of construction that nothing in the machine writes. -/
  capacity : Nat
  /-- The bytes that are not 0x00, by address. -/
  cells : List Host.Cell
  deriving DecidableEq, Repr

/-- The state of the core (R30). -/
structure State where
  /-- x0 to x31 (R31). x0 is a cell like the others, zeroed at the end of every executed cycle (R34). -/
  regs : Vector Word 32
  /-- The address of the instruction being executed (R39). -/
  pc : Word
  /-- Memory (R60). -/
  mem : Memory
  /-- The controller status (R43). -/
  status : Status
  deriving DecidableEq, Repr

/-- The core right after construction from its parameters: x0 = 0, xi = REG_INIT[i], pc = 0, every byte
0x00, status Idle (R50, R310). -/
def State.construct (cfg : Config) : State where
  regs := cfg.regInit.set 0 0
  pc := 0
  mem := { capacity := cfg.capacity, cells := [] }
  status := .idle

/-- The machine right after reset. Reset is construction (R310), here from `Config.reference`: CAPACITY
1 MiB, and zero for x1 to x31, which the spec leaves OPEN (DESIGN CHOICE, log entries 3 and 4). -/
def State.reset : State := State.construct Config.reference

/-- Reasons a step may stop with a fault: none. The spec gives every cycle an effect, and its two fatal
errors are a state of the controller, Faulted(kind, addr), which a step reaches as its next state (R283,
log entry 1). Nothing raises a fault, so the type has no constructor. -/
inductive Fault where
  deriving DecidableEq, Repr

/-- Reasons a step may be refused. -/
inductive Refusal where
  /-- An instruction of the opcode table with no meaning yet, by its mnemonic; raised only by an arm of
  `exec` (safe). Every instruction has its meaning, so nothing raises it now. -/
  | notModelled (mnemonic : String)
  deriving DecidableEq, Repr

end Sys2Proof.Machine
end

