-- ==== Sys2Proof/Machine/Ops.lean ====
section
/-! DEFINITION. The named operations over Memory and registers, the end of a cycle (write-back, zero
enforcement, pc update), entering Faulted and Halted, starting a run, and the fetch. -/

namespace Sys2Proof.Machine

/-! ### Memory -/

/-- What a byte that nothing has written reads as: 0x00, its value at construction (10_state.md R50,
20_memory.md R71; D4, log entry 5). -/
def unlistedByte : Byte := 0

/-- The canonical form: addresses strictly rising, every one below CAPACITY, and no entry equal to what
an unlisted address reads as; so equal memories are equal data. -/
abbrev Memory.wf (m : Memory) : Prop :=
  m.cells.Pairwise (fun p q => p.1 < q.1) ∧
    ∀ p ∈ m.cells, p.1 < m.capacity ∧ p.2 ≠ unlistedByte

/-- The byte listed for address `a`, or the unlisted byte. -/
def lookupCell (a : Nat) : List Host.Cell → Byte
  | [] => unlistedByte
  | (k, v) :: rest => if k = a then v else lookupCell a rest

/-- The list with address `a` holding `b`, keeping the canonical form. -/
def setCell (a : Nat) (b : Byte) : List Host.Cell → List Host.Cell
  | [] => if b = unlistedByte then [] else [(a, b)]
  | (k, v) :: rest =>
    if a < k then (if b = unlistedByte then (k, v) :: rest else (a, b) :: (k, v) :: rest)
    else if a = k then (if b = unlistedByte then rest else (a, b) :: rest)
    else (k, v) :: setCell a b rest

/-- `mem[a]` (R60). -/
def Memory.readByte (m : Memory) (a : Nat) : Byte := lookupCell a m.cells

/-- `mem[a] <- b` for an address that is backed; an address at or above CAPACITY has no storage (R60),
so nothing changes there. Every caller checks the bounds first (R64, R311; log entry 6). -/
def Memory.writeByte (m : Memory) (a : Nat) (b : Byte) : Memory :=
  if a < m.capacity then { m with cells := setCell a b m.cells } else m

/-- `mem[a + k] <- bytes[k]` for every k, from the lowest address up. -/
def Memory.writeBytes (m : Memory) (a : Nat) : List Byte → Memory
  | [] => m
  | b :: rest => (m.writeByte a b).writeBytes (a + 1) rest

/-- The bounds check of a 4-byte access, in unbounded integers (R64). -/
def Memory.fits (m : Memory) (addr : Word) : Bool := decide (u32 addr + 4 ≤ m.capacity)

/-- The access of `MemRead(addr, 4)` after its bounds check (R62). -/
def Memory.readWord (m : Memory) (addr : Word) : Word :=
  wordOfBytes (m.readByte (u32 addr)) (m.readByte (u32 addr + 1)) (m.readByte (u32 addr + 2))
    (m.readByte (u32 addr + 3))

/-- The access of `MemWrite(addr, 4, v)` after its bounds check (R63). -/
def Memory.writeWord (m : Memory) (addr v : Word) : Memory := m.writeBytes (u32 addr) (bytesOfWord v)

/-! ### Registers -/

/-- `x[r]` (00_scope.md R14): a read port of the register file (10_state.md R45). -/
def State.readReg (s : State) (r : RegIdx) : Word := s.regs[r.toNat]'(r.isLt)

/-- The write port of the register file: `x[wa] <- wd` when there is a write (R45, R33). A write to cell 0
lands in it (R33, D16). -/
def writeBack (w : Option (RegIdx × Word)) (regs : Vector Word 32) : Vector Word 32 :=
  match w with
  | some (r, v) => regs.set r.toNat v r.isLt
  | none => regs

/-- `zero_enforce`: `x[0] <- 0` (R34, R45). -/
def zeroEnforce (regs : Vector Word 32) : Vector Word 32 := regs.set 0 0

/-! ### The end of a cycle -/

/-- What the executor returns when it raises no fatal error: `next_pc`, at most one register write and at
most one memory write (48_fetch_execute.md R257). -/
structure Effect where
  nextPc : Word
  regWrite : Option (RegIdx × Word)
  memWrite : Option (Word × Word)
  deriving DecidableEq, Repr

/-- The memory write of an effect, its bounds already checked (R259). -/
def applyMemWrite (w : Option (Word × Word)) (m : Memory) : Memory :=
  match w with
  | some (addr, v) => m.writeWord addr v
  | none => m

/-- Write-back and pc update: the register write if any, the memory write if any, `x[0] <- 0`, then
`pc <- next_pc`; the status stays (R259, 10_state.md R34, R40). -/
def retire (e : Effect) (s : State) : State :=
  { s with
    regs := zeroEnforce (writeBack e.regWrite s.regs)
    mem := applyMemWrite e.memWrite s.mem
    pc := e.nextPc }

/-- `raise E(info)`: the fatal error E ends the cycle. No register, no byte and not the pc changes; the
controller enters Faulted(E, info) (00_scope.md R16, 60_exceptions.md R283, R286, 48_fetch_execute.md
R258). There is no handler and nothing is saved (R280). -/
def raiseFatal (kind : FatalKind) (addr : Word) (s : State) : State :=
  { s with status := .faulted kind addr }

/-- The halt word ends the run: the controller enters Halted and nothing else changes (R255). -/
def halt (s : State) : State := { s with status := .halted }

/-- The only way on after Halted or Faulted, there being no return from an error (60_exceptions.md R287):
a new run sets status Running and pc 0 and keeps registers and Memory (10_state.md R51). -/
def startRun (s : State) : State := { s with status := .running, pc := 0 }

/-! ### The fetch -/

/-- What the fetch of a cycle gives: a fatal error with its recorded address, or the word. -/
inductive Fetched where
  | fatal (kind : FatalKind) (addr : Word)
  | word (w : Word)
  deriving DecidableEq, Repr

/-- The fetch: the bounds check, then the alignment check, then the read of the word (R252 to R254; their
order is the spec's decision D10, log entry 10). -/
def fetch (s : State) : Fetched :=
  if s.mem.fits s.pc = false then .fatal .memoryOutOfBounds s.pc
  else if field s.pc 0 2 ≠ 0 then .fatal .alignmentViolation s.pc
  else .word (s.mem.readWord s.pc)

end Sys2Proof.Machine
end

