-- ==== Sys2Proof/Machine/Operands.lean ====
section
/-! DEFINITION. The operand forms: base plus displacement (the one addressing mode), and the addresses a
cycle may go on to. Register operands are `State.readReg`; immediates come from the decoder as 32-bit
patterns. -/

namespace Sys2Proof.Machine

/-- `ea = x[rs1] + imm`, modulo 2^32; the base register is not modified (42_load.md R180, 43_store.md
R190). -/
def effectiveAddress (s : State) (rs1 : RegIdx) (imm : Word) : Word := s.readReg rs1 + imm

/-- `pc + 4`: the next instruction in sequence, and JAL's link value (10_state.md R40, 46_jump.md R230). -/
def sequentialPc (s : State) : Word := s.pc + 4

/-- `pc + imm`, with pc the address of the instruction itself: a branch or JAL target, and AUIPC's result
(44_branch.md R201, 46_jump.md R230, 45_upper_immediate.md R221). -/
def pcRelative (s : State) (imm : Word) : Word := s.pc + imm

end Sys2Proof.Machine
end

