-- ==== Sys2Proof/Machine/Branch.lean ====
section
/-! DEFINITION. Conditional branches (44_branch.md). The comparison each mnemonic makes is the RV32I one
(D13, log entry 12). -/

namespace Sys2Proof.Machine

/-- "condition true → `next_pc = pc + imm`; else `next_pc = pc + 4`": no register, no Memory, no error in
this cycle, whatever the target (R201). -/
def branch (taken : Bool) (imm : Word) (s : State) : State :=
  retire
    { nextPc := if taken then pcRelative s imm else sequentialPc s
      regWrite := none
      memWrite := none } s

/-- BEQ (R202): `x[rs1] == x[rs2]`. -/
def execBeq (rs1 rs2 : RegIdx) (imm : Word) (s : State) : Host.Outcome State Fault Refusal :=
  .next (branch (equal (s.readReg rs1) (s.readReg rs2)) imm s)

/-- BNE (R203): `x[rs1] != x[rs2]`. -/
def execBne (rs1 rs2 : RegIdx) (imm : Word) (s : State) : Host.Outcome State Fault Refusal :=
  .next (branch (!equal (s.readReg rs1) (s.readReg rs2)) imm s)

/-- BLT (R204): `s32(x[rs1]) < s32(x[rs2])`. -/
def execBlt (rs1 rs2 : RegIdx) (imm : Word) (s : State) : Host.Outcome State Fault Refusal :=
  .next (branch (lessSigned (s.readReg rs1) (s.readReg rs2)) imm s)

/-- BGE (R205): `s32(x[rs1]) >= s32(x[rs2])`. -/
def execBge (rs1 rs2 : RegIdx) (imm : Word) (s : State) : Host.Outcome State Fault Refusal :=
  .next (branch (!lessSigned (s.readReg rs1) (s.readReg rs2)) imm s)

/-- BLTU (R206): `u32(x[rs1]) < u32(x[rs2])`. -/
def execBltu (rs1 rs2 : RegIdx) (imm : Word) (s : State) : Host.Outcome State Fault Refusal :=
  .next (branch (lessUnsigned (s.readReg rs1) (s.readReg rs2)) imm s)

/-- BGEU (R207): `u32(x[rs1]) >= u32(x[rs2])`. -/
def execBgeu (rs1 rs2 : RegIdx) (imm : Word) (s : State) : Host.Outcome State Fault Refusal :=
  .next (branch (!lessUnsigned (s.readReg rs1) (s.readReg rs2)) imm s)

end Sys2Proof.Machine
end

