-- ==== Sys2Proof/Machine/RegisterAlu.lean ====
section
/-! DEFINITION. Register-register ALU instructions (40_register_alu.md), and the shape every instruction
that only writes a register has. -/

namespace Sys2Proof.Machine

/-- The effect `x[rd] <- v; next_pc <- pc + 4`: one register, no Memory, no error (40_register_alu.md R146,
41_immediate_alu.md R160). -/
def writeRegister (rd : RegIdx) (v : Word) (s : State) : State :=
  retire { nextPc := sequentialPc s, regWrite := some (rd, v), memWrite := none } s

/-- ADD (R141): `x[rd] <- x[rs1] + x[rs2]`, modulo 2^32 (D5, log entry 7). -/
def execAdd (rd rs1 rs2 : RegIdx) (s : State) : Host.Outcome State Fault Refusal :=
  .next (writeRegister rd (s.readReg rs1 + s.readReg rs2) s)

/-- SUB (R142): `x[rd] <- x[rs1] - x[rs2]`, modulo 2^32. -/
def execSub (rd rs1 rs2 : RegIdx) (s : State) : Host.Outcome State Fault Refusal :=
  .next (writeRegister rd (s.readReg rs1 - s.readReg rs2) s)

/-- AND (R143): `x[rd] <- x[rs1] & x[rs2]`. -/
def execAnd (rd rs1 rs2 : RegIdx) (s : State) : Host.Outcome State Fault Refusal :=
  .next (writeRegister rd (s.readReg rs1 &&& s.readReg rs2) s)

/-- OR (R144): `x[rd] <- x[rs1] | x[rs2]`. -/
def execOr (rd rs1 rs2 : RegIdx) (s : State) : Host.Outcome State Fault Refusal :=
  .next (writeRegister rd (s.readReg rs1 ||| s.readReg rs2) s)

/-- XOR (R145): `x[rd] <- x[rs1] ^ x[rs2]`. -/
def execXor (rd rs1 rs2 : RegIdx) (s : State) : Host.Outcome State Fault Refusal :=
  .next (writeRegister rd (s.readReg rs1 ^^^ s.readReg rs2) s)

end Sys2Proof.Machine
end

