-- ==== Sys2Proof/Machine/ImmediateAlu.lean ====
section
/-! DEFINITION. Register-immediate ALU instructions (41_immediate_alu.md). -/

namespace Sys2Proof.Machine

/-- ADDI (R161): `x[rd] <- x[rs1] + imm`, modulo 2^32 (D5, log entry 7). -/
def execAddi (rd rs1 : RegIdx) (imm : Word) (s : State) : Host.Outcome State Fault Refusal :=
  .next (writeRegister rd (s.readReg rs1 + imm) s)

/-- SLTI (R162): `x[rd] <- (s32(x[rs1]) < s32(imm)) ? 1 : 0`. -/
def execSlti (rd rs1 : RegIdx) (imm : Word) (s : State) : Host.Outcome State Fault Refusal :=
  .next (writeRegister rd (truthWord (lessSigned (s.readReg rs1) imm)) s)

/-- SLTIU (R163): `x[rd] <- (u32(x[rs1]) < u32(imm)) ? 1 : 0`, the immediate sign-extended first. -/
def execSltiu (rd rs1 : RegIdx) (imm : Word) (s : State) : Host.Outcome State Fault Refusal :=
  .next (writeRegister rd (truthWord (lessUnsigned (s.readReg rs1) imm)) s)

end Sys2Proof.Machine
end

