-- ==== Sys2Proof/Machine/Jump.lean ====
section
/-! DEFINITION. Jump and link (46_jump.md). -/

namespace Sys2Proof.Machine

/-- JAL (R230): `x[rd] <- pc + 4; next_pc <- pc + imm`, modulo 2^32. A misaligned or unbacked target is
accepted here, and the next fetch raises the error. -/
def execJal (rd : RegIdx) (imm : Word) (s : State) : Host.Outcome State Fault Refusal :=
  .next (retire
    { nextPc := pcRelative s imm
      regWrite := some (rd, sequentialPc s)
      memWrite := none } s)

end Sys2Proof.Machine
end

