-- ==== Sys2Proof/Machine/LoadStore.lean ====
section
/-! DEFINITION. The load and the store (42_load.md, 43_store.md). Neither needs alignment (20_memory.md
R66; D7, log entry 9). -/

namespace Sys2Proof.Machine

/-- LW (R181): the word at `ea`, or MemoryOutOfBounds(ea) with no effect. The read is made, and may fault,
when rd is x0 too (30_encoding.md R109). -/
def execLw (rd rs1 : RegIdx) (imm : Word) (s : State) : Host.Outcome State Fault Refusal :=
  if s.mem.fits (effectiveAddress s rs1 imm) then
    .next (writeRegister rd (s.mem.readWord (effectiveAddress s rs1 imm)) s)
  else .next (raiseFatal .memoryOutOfBounds (effectiveAddress s rs1 imm) s)

/-- SW (R191): `x[rs2]` to the four bytes at `ea`, or MemoryOutOfBounds(ea) with no effect. No register is
written. -/
def execSw (rs1 rs2 : RegIdx) (imm : Word) (s : State) : Host.Outcome State Fault Refusal :=
  if s.mem.fits (effectiveAddress s rs1 imm) then
    .next (retire
      { nextPc := sequentialPc s
        regWrite := none
        memWrite := some (effectiveAddress s rs1 imm, s.readReg rs2) } s)
  else .next (raiseFatal .memoryOutOfBounds (effectiveAddress s rs1 imm) s)

end Sys2Proof.Machine
end

