-- ==== Sys2Proof/Machine/UpperImmediate.lean ====
section
/-! DEFINITION. Upper-immediate instructions (45_upper_immediate.md). -/

namespace Sys2Proof.Machine

/-- LUI (R220): `x[rd] <- imm`, the immediate already in the upper 20 bits. -/
def execLui (rd : RegIdx) (imm : Word) (s : State) : Host.Outcome State Fault Refusal :=
  .next (writeRegister rd imm s)

/-- AUIPC (R221): `x[rd] <- pc + imm`, with pc the address of the AUIPC itself, modulo 2^32 (D5). -/
def execAuipc (rd : RegIdx) (imm : Word) (s : State) : Host.Outcome State Fault Refusal :=
  .next (writeRegister rd (pcRelative s imm) s)

end Sys2Proof.Machine
end

