-- ==== Sys2Proof/Machine/Unsupported.lean ====
section
/-! DEFINITION. Unsupported words (47_unsupported.md): recoverable no-ops. They are no rows of the opcode
table, so the controller runs them (Cycle.lean). What they report is in Reports.lean. -/

namespace Sys2Proof.Machine

/-- UnsupportedOpcode (R240): `next_pc <- pc + 4`, no register and no Memory written; zero enforcement
still runs. -/
def skipUnsupportedOpcode (s : State) : State :=
  retire { nextPc := sequentialPc s, regWrite := none, memWrite := none } s

/-- UnsupportedInstruction (R241): the same no-op; an unsupported load or store makes no access and an
unsupported branch goes on at pc + 4. -/
def skipUnsupportedInstruction (s : State) : State :=
  retire { nextPc := sequentialPc s, regWrite := none, memWrite := none } s

end Sys2Proof.Machine
end

