-- ==== Sys2Proof/Machine/Cycle.lean ====
section
/-! DEFINITION. One cycle of the fetch-execute controller (48_fetch_execute.md R252). -/

namespace Sys2Proof.Machine

/-- What a fetched word does: the halt word ends the run before decode (R255); an instruction executes
(R257); an unsupported word is a no-op (47_unsupported.md R240 to R242). -/
def runWord (w : Word) (s : State) : Host.Outcome State Fault Refusal :=
  if w = 0 then .next (halt s)
  else
    match decode w with
    | .instr i => exec i s
    | .unsupportedOpcode _ => .next (skipUnsupportedOpcode s)
    | .unsupportedInstruction _ => .next (skipUnsupportedInstruction s)

/-- One cycle, in the order of R252 and R284. -/
def cycle (s : State) : Host.Outcome State Fault Refusal :=
  match fetch s with
  | .fatal kind addr => .next (raiseFatal kind addr s)
  | .word w => runWord w s

end Sys2Proof.Machine
end

