-- ==== Sys2Proof/Machine/Step.lean ====
section
/-! DEFINITION. The step of the machine: one cycle while a run is in progress. -/

namespace Sys2Proof.Machine

/-- One step. While the status is Running the controller performs a cycle (48_fetch_execute.md R252). In
Idle, Halted and Faulted it performs none, and nothing changes until the host asks for a run (R251,
60_exceptions.md R294; log entry 2). -/
def step (s : State) : Host.Outcome State Fault Refusal :=
  match s.status with
  | .running => cycle s
  | .idle => .next s
  | .halted => .next s
  | .faulted _ _ => .next s

/-- The state with the instruction of bits `w` stored where the next step fetches. Where no cycle could
fetch (no run in progress, or a pc with no aligned word in Memory), a run is started first, at pc 0: this
stands for the host's `load_bytes` and `run` (70_reset_and_hazards.md R311, R313, R317; log entry 15). -/
def State.withFetchWord (s : State) (nbits w : Nat) : State :=
  let ready :=
    match s.status, fetch s with
    | .running, .word _ => s
    | _, _ => startRun s
  { ready with mem := ready.mem.writeWord ready.pc (BitVec.ofNat 32 (w % 2 ^ nbits)) }

end Sys2Proof.Machine
end

