-- ==== Sys2Proof/Machine/Errors.lean ====
section
/-! DEFINITION. The four errors and their codes (60_exceptions.md R281). The fatal two are `FatalKind` of
State.lean, for a Faulted status records one of them; the recoverable two are here. -/

namespace Sys2Proof.Machine

/-- The recoverable errors (R281, R282): reported, and the run goes on. -/
inductive RecoverableKind where
  /-- A non-zero word whose opcode is outside the supported set (47_unsupported.md R240). -/
  | unsupportedOpcode
  /-- A supported opcode with an unrecognised funct3 or funct3/funct7 (47_unsupported.md R241). -/
  | unsupportedInstruction
  deriving DecidableEq, Repr

/-- The codes of the recoverable errors (R281; the numbers are the spec's decision D9, log entry 1). -/
def RecoverableKind.code : RecoverableKind → Nat
  | .unsupportedOpcode => 1
  | .unsupportedInstruction => 2

/-- The codes of the fatal errors (R281; the numbers are the spec's decision D9, log entry 1). -/
def FatalKind.code : FatalKind → Nat
  | .memoryOutOfBounds => 3
  | .alignmentViolation => 4

end Sys2Proof.Machine
end

