-- ==== Sys2Proof/Machine/HostInterface.lean ====
section
/-! DEFINITION. What the outside caller can do to the core (70_reset_and_hazards.md R311 to R316): load
bytes, ask for a run, inspect. Every request is accepted only while the status is not Running (R315, D17);
there is no other access. -/

namespace Sys2Proof.Machine

/-- What a request answers. -/
inductive HostReply (α : Type) where
  /-- The request was carried out, with its result. -/
  | ok (a : α)
  /-- MemoryOutOfBounds returned to the host: nothing was written and the status did not change (R311,
  R314, D12). -/
  | memoryOutOfBounds
  /-- A run is in progress: the host makes no request then (R315, U12). -/
  | runInProgress
  deriving DecidableEq, Repr

/-- Whether a request is accepted (R316). -/
def State.acceptsHost (s : State) : Bool := decide (s.status ≠ .running)

/-- `load_bytes(offset, bytes)` (R311): the bytes verbatim from `offset` up, with no validation, or nothing
when they do not all lie below CAPACITY. -/
def loadBytes (offset : Nat) (bytes : List Byte) (s : State) : HostReply State :=
  if s.acceptsHost = false then .runInProgress
  else if offset + bytes.length ≤ s.mem.capacity then
    .ok { s with mem := s.mem.writeBytes offset bytes }
  else .memoryOutOfBounds

/-- The acceptance of `run()` (R313, R251): status Running, pc 0, registers and Memory kept. The cycles are
`step`'s. -/
def requestRun (s : State) : HostReply State :=
  if s.acceptsHost = false then .runInProgress else .ok (startRun s)

/-- The exit signal of a status that ends a run: 0 for Halted, and the code of the error for Faulted
(48_fetch_execute.md R264, 60_exceptions.md R281). -/
def exitSignal : Status → Option Nat
  | .idle => none
  | .running => none
  | .halted => some 0
  | .faulted kind _ => some kind.code

/-- The recorded address of a fatal error, presented with the exit signal (R264, R314). -/
def faultAddress : Status → Option Word
  | .faulted _ addr => some addr
  | .idle | .running | .halted => none

/-- Up to `fuel` cycles of the run in progress: the state in which it has ended, or none while it goes on.
Running out of fuel is no end of the run (48_fetch_execute.md R263, D20). -/
def runCycles : Nat → State → Option State
  | 0, s => if s.status = .running then none else some s
  | fuel + 1, s =>
    if s.status = .running then
      match step s with
      | .next t => runCycles fuel t
      | .fault _ => none
      | .refused _ => none
    else some s

/-- Inspection of a register (R314). -/
def inspectRegister (r : RegIdx) (s : State) : HostReply Word :=
  if s.acceptsHost = false then .runInProgress else .ok (s.readReg r)

/-- Inspection of a byte of Memory (R314). -/
def inspectByte (a : Nat) (s : State) : HostReply Byte :=
  if s.acceptsHost = false then .runInProgress
  else if a < s.mem.capacity then .ok (s.mem.readByte a) else .memoryOutOfBounds

/-- Inspection of the pc (R314). -/
def inspectPc (s : State) : HostReply Word :=
  if s.acceptsHost = false then .runInProgress else .ok s.pc

/-- Inspection of the status, which carries the recorded fault address (R314). -/
def inspectStatus (s : State) : HostReply Status :=
  if s.acceptsHost = false then .runInProgress else .ok s.status

end Sys2Proof.Machine
end

