-- ==== Sys2Proof/Machine/Reports.lean ====
section
/-! DEFINITION. The observational outputs (48_fetch_execute.md R262): the diagnostic report and the trace
event of a cycle. They are functions of the state a cycle starts in and no part of the state (10_state.md
R30), and nothing in the machine reads them. -/

namespace Sys2Proof.Machine

/-- A diagnostic report: error name, pc and word (R282, D14). -/
structure Report where
  error : RecoverableKind
  pc : Word
  word : Word
  deriving DecidableEq, Repr

/-- A trace event `{pc, opcode, mnemonic, operands}` (R262): the mnemonic and the operands are those of
the instruction. -/
structure TraceEvent where
  pc : Word
  opcode : Opcode
  instruction : Instr
  deriving DecidableEq, Repr

/-- The word this state's cycle hands to the decode unit, if it gets so far: a run is in progress, the
fetch raises no error and the word is not the halt word. -/
def State.decodedWord (s : State) : Option Word :=
  match s.status, fetch s with
  | .running, .word w => if w = 0 then none else some w
  | _, _ => none

/-- The report this state's cycle emits: one for each recoverable error (47_unsupported.md R240, R241). -/
def State.report (s : State) : Option Report :=
  match s.decodedWord with
  | none => none
  | some w =>
    match decode w with
    | .instr _ => none
    | .unsupportedOpcode _ => some { error := .unsupportedOpcode, pc := s.pc, word := w }
    | .unsupportedInstruction _ => some { error := .unsupportedInstruction, pc := s.pc, word := w }

/-- The trace event this state's cycle may emit: one for each instruction that executes without a fatal
error. Whether it is emitted is open (U9, log entry 11). -/
def State.traceEvent (s : State) : Option TraceEvent :=
  match s.decodedWord with
  | none => none
  | some w =>
    match decode w with
    | .instr i =>
      match exec i s with
      | .next t =>
        if t.status = .running then some { pc := s.pc, opcode := opcodeOf w, instruction := i } else none
      | .fault _ => none
      | .refused _ => none
    | .unsupportedOpcode _ => none
    | .unsupportedInstruction _ => none

end Sys2Proof.Machine
end

