-- ==== Sys2Proof/Safety.lean ====
section
/-! DEFINITION. The terms the claims use: the invariant of the machine, what a cycle leaves unchanged, and
which register an instruction may write. -/

namespace Sys2Proof.Machine

/-! ### The invariant -/

/-- What a status says of the rest of the state. A MemoryOutOfBounds address is one whose four bytes are
not all backed; an AlignmentViolation address is the pc, which is backed and not a multiple of 4 (R253,
R254); Halted leaves the pc at a word that could be fetched (R255). -/
def State.statusCoherent (s : State) : Prop :=
  match s.status with
  | .idle => s.pc = 0
  | .running => True
  | .halted => s.mem.fits s.pc = true ∧ u32 s.pc % 4 = 0
  | .faulted .memoryOutOfBounds addr => s.mem.fits addr = false
  | .faulted .alignmentViolation addr =>
    addr = s.pc ∧ s.mem.fits s.pc = true ∧ u32 s.pc % 4 ≠ 0

/-- The invariant: x0 reads 0 (10_state.md R35); the Memory is canonical and of an allowed CAPACITY
(00_scope.md R9); the pc is even, since every B and J immediate is (30_encoding.md R97, R99; it need not
be a multiple of 4, C4); and the status agrees with the rest. -/
structure State.Inv (s : State) : Prop where
  zero : s.readReg 0 = 0
  memory : s.mem.wf
  capacity : capacityAllowed s.mem.capacity
  pcEven : u32 s.pc % 2 = 0
  status : s.statusCoherent

/-! ### What stays -/

/-- Every byte of Memory, and its length, is as before. -/
def MemoryKept (s t : State) : Prop :=
  t.mem.capacity = s.mem.capacity ∧ ∀ a : Nat, t.mem.readByte a = s.mem.readByte a

/-- Every byte of Memory outside the four from `ea` up is as before, and so is its length. -/
def MemoryKeptOutside (ea : Word) (s t : State) : Prop :=
  t.mem.capacity = s.mem.capacity ∧
    ∀ a : Nat, (a < u32 ea ∨ u32 ea + 4 ≤ a) → t.mem.readByte a = s.mem.readByte a

/-- Every register but x0 is as before, and x0 reads 0: what a cycle leaves that writes no register. -/
def RegistersKept (s t : State) : Prop :=
  t.readReg 0 = 0 ∧ ∀ r : RegIdx, r ≠ 0 → t.readReg r = s.readReg r

/-- `rd` holds `v`, unless it is x0, which reads 0 whatever is written to it; every other register is as
before. -/
def RegisterWritten (rd : RegIdx) (v : Word) (s t : State) : Prop :=
  t.readReg 0 = 0 ∧ (rd ≠ 0 → t.readReg rd = v) ∧
    ∀ r : RegIdx, r ≠ 0 → r ≠ rd → t.readReg r = s.readReg r

/-- What a fatal error leaves: every register, every byte and the pc as they were, and the status Faulted
(60_exceptions.md R283). -/
def Faulted (kind : FatalKind) (addr : Word) (s t : State) : Prop :=
  (∀ r : RegIdx, t.readReg r = s.readReg r) ∧ t.mem = s.mem ∧ t.pc = s.pc ∧
    t.status = .faulted kind addr

/-- A run is in progress and its next cycle fetches `w`. -/
def Fetches (s : State) (w : Word) : Prop :=
  s.status = .running ∧ u32 s.pc + 4 ≤ s.mem.capacity ∧ u32 s.pc % 4 = 0 ∧ s.mem.readWord s.pc = w

/-! ### What an instruction may write -/

/-- The register an instruction writes (10_state.md R33). -/
def destOf : Instr → Option RegIdx
  | .add rd _ _ | .sub rd _ _ | .and rd _ _ | .or rd _ _ | .xor rd _ _ => some rd
  | .addi rd _ _ | .slti rd _ _ | .sltiu rd _ _ | .lw rd _ _ => some rd
  | .lui rd _ | .auipc rd _ | .jal rd _ => some rd
  | .sw _ _ _ | .beq _ _ _ | .bne _ _ _ | .blt _ _ _ | .bge _ _ _ | .bltu _ _ _ | .bgeu _ _ _ => none

end Sys2Proof.Machine
end

