-- ==== Sys2Proof/Certificates/Slice0/Obligations.lean ====
section
/-! DEFINITION. The statements for the provers, from the numbered rules of spec/. Each is about every
state, every operand or every word unless it says otherwise. The predicates they use (`RegisterWritten`,
`RegistersKept`, `MemoryKept`, `Fetches`, `Faulted`, `State.Inv`) are Safety.lean's. -/

open Sys2Proof Sys2Proof.Machine

/-! ### Decoding and encoding -/

/-- Words the spec writes out (40 to 47's Example lines, 95_test_vectors.md) decode to what it says they
are: one or more of each family, and one of each unsupported kind. -/
def Obligations.SpecWordsDecodeAsWritten : Prop :=
  decode 0x002081B3 = .instr (.add 3 1 2) ∧
  decode 0x401101B3 = .instr (.sub 3 2 1) ∧
  decode 0xFFF00013 = .instr (.addi 0 0 0xFFFFFFFF) ∧
  decode 0x00012183 = .instr (.lw 3 2 0) ∧
  decode 0xFE112FA3 = .instr (.sw 2 1 0xFFFFFFFF) ∧
  decode 0xFE009CE3 = .instr (.bne 1 0 0xFFFFFFF8) ∧
  decode 0x123450B7 = .instr (.lui 1 0x12345000) ∧
  decode 0x00001117 = .instr (.auipc 2 0x00001000) ∧
  decode 0xFF5FF06F = .instr (.jal 0 0xFFFFFFF4) ∧
  decode 0x00008067 = .unsupportedOpcode 0x67 ∧
  decode 0x00001033 = .unsupportedInstruction 0x33

/-- R94: an R word's record carries the opcode, rd, funct3, rs1, rs2 and funct7 at their places, and no
immediate. -/
def Obligations.RShapeRecordHoldsItsFields : Prop :=
  ∀ w : Word, w.toNat % 128 = 0x33 →
    ∃ rd f3 rs1 rs2 f7, decodeUnit w = .r 0x33 rd f3 rs1 rs2 f7 ∧
      rd.toNat = w.toNat / 2 ^ 7 % 32 ∧ f3.toNat = w.toNat / 2 ^ 12 % 8 ∧
      rs1.toNat = w.toNat / 2 ^ 15 % 32 ∧ rs2.toNat = w.toNat / 2 ^ 20 % 32 ∧
      f7.toNat = w.toNat / 2 ^ 25

/-- R95, R96: the records of I and S words, with bit k of the immediate given by the layouts: 12 encoded
bits, bit 11 filling the rest. -/
def Obligations.IAndSShapeRecordsHoldTheirFields : Prop :=
  (∀ w : Word, w.toNat % 128 = 0x13 ∨ w.toNat % 128 = 0x03 →
    ∃ op rd f3 rs1 imm, decodeUnit w = .i op rd f3 rs1 imm ∧
      op.toNat = w.toNat % 128 ∧ rd.toNat = w.toNat / 2 ^ 7 % 32 ∧ f3.toNat = w.toNat / 2 ^ 12 % 8 ∧
      rs1.toNat = w.toNat / 2 ^ 15 % 32 ∧
      ∀ k : Nat, k < 32 → imm.getLsbD k = w.getLsbD (if k < 11 then k + 20 else 31)) ∧
  (∀ w : Word, w.toNat % 128 = 0x23 →
    ∃ f3 rs1 rs2 imm, decodeUnit w = .s 0x23 f3 rs1 rs2 imm ∧
      f3.toNat = w.toNat / 2 ^ 12 % 8 ∧ rs1.toNat = w.toNat / 2 ^ 15 % 32 ∧
      rs2.toNat = w.toNat / 2 ^ 20 % 32 ∧
      ∀ k : Nat, k < 32 →
        imm.getLsbD k = w.getLsbD (if k < 5 then k + 7 else if k < 11 then k + 20 else 31))

/-- R97, R98, R99: the records of B, U and J words, with bit k of the immediate given by the layouts. Bit
0 of a B or J immediate is 0; a U immediate is the word with its low 12 bits cleared. -/
def Obligations.BUAndJShapeRecordsHoldTheirFields : Prop :=
  (∀ w : Word, w.toNat % 128 = 0x63 →
    ∃ f3 rs1 rs2 imm, decodeUnit w = .b 0x63 f3 rs1 rs2 imm ∧
      f3.toNat = w.toNat / 2 ^ 12 % 8 ∧ rs1.toNat = w.toNat / 2 ^ 15 % 32 ∧
      rs2.toNat = w.toNat / 2 ^ 20 % 32 ∧ imm.getLsbD 0 = false ∧
      ∀ k : Nat, 1 ≤ k → k < 32 → imm.getLsbD k =
        w.getLsbD (if k < 5 then k + 7 else if k < 11 then k + 20 else if k = 11 then 7 else 31)) ∧
  (∀ w : Word, w.toNat % 128 = 0x37 ∨ w.toNat % 128 = 0x17 →
    ∃ op rd imm, decodeUnit w = .u op rd imm ∧ op.toNat = w.toNat % 128 ∧
      rd.toNat = w.toNat / 2 ^ 7 % 32 ∧ imm = w &&& 0xFFFFF000 ∧
      ∀ k : Nat, k < 32 → imm.getLsbD k = (decide (12 ≤ k) && w.getLsbD k)) ∧
  (∀ w : Word, w.toNat % 128 = 0x6F →
    ∃ rd imm, decodeUnit w = .j 0x6F rd imm ∧ rd.toNat = w.toNat / 2 ^ 7 % 32 ∧
      imm.getLsbD 0 = false ∧
      ∀ k : Nat, 1 ≤ k → k < 32 → imm.getLsbD k =
        w.getLsbD (if k < 11 then k + 20 else if k = 11 then 20 else if k < 20 then k else 31))

/-- R93, R100: the shape is a function of the opcode alone, and an opcode outside the eight gives the
unsupported result with the opcode and no other field. -/
def Obligations.ShapeFollowsTheOpcodeAlone : Prop :=
  (∀ w w' : Word, opcodeOf w = opcodeOf w' →
    match decodeUnit w, decodeUnit w' with
    | .r .., .r .. | .i .., .i .. | .s .., .s .. | .b .., .b .. | .u .., .u .. | .j .., .j ..
    | .unsupported _, .unsupported _ => True
    | _, _ => False) ∧
  (∀ w : Word, opcodeOf w ∉ ([0x33, 0x13, 0x03, 0x23, 0x63, 0x37, 0x17, 0x6F] : List Opcode) ↔
    decodeUnit w = .unsupported (opcodeOf w))

/-- R105's law for records, with R103's ranges: decoding an encoded record of any of the six formats gives
it back. The spec marks the rule as its own derivation. -/
def Obligations.DecodeUnitInvertsEncodeRecord : Prop :=
  ∀ r : Record, r.wf = true → decodeUnit (encodeRecord r) = r

/-- The same for instructions: every operand, at every value its encoding admits. -/
def Obligations.DecodeInvertsEncode : Prop :=
  ∀ i : Instr, i.wf = true → decode (encode i) = .instr i

/-- The other direction: a word that is an instruction is the one word of that instruction, and its
immediate is in range. No bit of a supported word is ignored (R110). For funct3 0x4, 0x6 and 0x7 of opcode
0x33 this rests on the spec's own decision that a non-zero funct7 is no instruction (D6, log entry 8). -/
def Obligations.EncodeInvertsDecode : Prop :=
  ∀ (w : Word) (i : Instr), decode w = .instr i → i.wf = true ∧ encode i = w

/-- R104's table: a word decodes to an instruction of a row exactly when its masked bits are the row's
match. The spec marks match and mask as its own derivation, and the funct7 = 0 of AND, OR and XOR as its
own decision (D6, log entry 8). -/
def Obligations.OpcodeMapIsExact : Prop :=
  (∀ (w : Word) (i : Instr), decode w = .instr i → w &&& i.mask = i.matchWord) ∧
  (∀ (w : Word) (i : Instr), w &&& i.mask = i.matchWord →
    ∃ j, decode w = .instr j ∧ j.mask = i.mask ∧ j.matchWord = i.matchWord)

/-- R200: funct3 0x0, 0x1, 0x4, 0x5, 0x6 and 0x7 select the six branches, with the record's operands, and
0x2 and 0x3 select none. -/
def Obligations.Funct3SelectsTheBranch : Prop :=
  ∀ w : Word, opcodeOf w = 0x63 →
    (funct3Of w = 0x0 → decode w = .instr (.beq (rs1Of w) (rs2Of w) (immB w))) ∧
    (funct3Of w = 0x1 → decode w = .instr (.bne (rs1Of w) (rs2Of w) (immB w))) ∧
    (funct3Of w = 0x4 → decode w = .instr (.blt (rs1Of w) (rs2Of w) (immB w))) ∧
    (funct3Of w = 0x5 → decode w = .instr (.bge (rs1Of w) (rs2Of w) (immB w))) ∧
    (funct3Of w = 0x6 → decode w = .instr (.bltu (rs1Of w) (rs2Of w) (immB w))) ∧
    (funct3Of w = 0x7 → decode w = .instr (.bgeu (rs1Of w) (rs2Of w) (immB w))) ∧
    (funct3Of w = 0x2 ∨ funct3Of w = 0x3 → decode w = .unsupportedInstruction 0x63)

/-! ### Register-register ALU -/

/-- R146: every instruction of opcode 0x33 completes, writes only rd, goes on at pc + 4, leaves every byte
of Memory, and what it writes depends on nothing but x[rs1] and x[rs2] as they were before it. -/
def Obligations.RegisterAluTouchesOnlyItsRegisters : Prop :=
  ∀ (w : Word) (i : Instr), opcodeOf w = 0x33 → decode w = .instr i →
    (∀ s, ∃ t, exec i s = .next t ∧ (∃ v, RegisterWritten (rdOf w) v s t) ∧ t.pc = s.pc + 4 ∧
      MemoryKept s t ∧ t.status = s.status) ∧
    (∀ s s' t t', s.readReg (rs1Of w) = s'.readReg (rs1Of w) → s.readReg (rs2Of w) = s'.readReg (rs2Of w) →
      exec i s = .next t → exec i s' = .next t' → t.readReg (rdOf w) = t'.readReg (rdOf w))

/-- R141, R142: ADD and SUB complete from every state and write the sum and the difference, modulo 2^32,
of the two registers as they were. That sums wrap is the spec's own decision (D5, log entry 7). -/
def Obligations.AddAndSubWriteWrappedResults : Prop :=
  (∀ rd rs1 rs2 s, ∃ t v, exec (.add rd rs1 rs2) s = .next t ∧ RegisterWritten rd v s t ∧
    u32 v = (u32 (s.readReg rs1) + u32 (s.readReg rs2)) % 2 ^ 32 ∧
    t.pc = s.pc + 4 ∧ MemoryKept s t ∧ t.status = s.status) ∧
  (∀ rd rs1 rs2 s, ∃ t v, exec (.sub rd rs1 rs2) s = .next t ∧ RegisterWritten rd v s t ∧
    (u32 v : Int) = ((u32 (s.readReg rs1) : Int) - u32 (s.readReg rs2)) % 2 ^ 32 ∧
    t.pc = s.pc + 4 ∧ MemoryKept s t ∧ t.status = s.status)

/-- R143, R144, R145: AND, OR and XOR complete from every state and write the bitwise result. -/
def Obligations.LogicInstructionsWriteBitwiseResults : Prop :=
  (∀ rd rs1 rs2 s, ∃ t v, exec (.and rd rs1 rs2) s = .next t ∧ RegisterWritten rd v s t ∧
    (∀ k, v.getLsbD k = ((s.readReg rs1).getLsbD k && (s.readReg rs2).getLsbD k)) ∧
    t.pc = s.pc + 4 ∧ MemoryKept s t ∧ t.status = s.status) ∧
  (∀ rd rs1 rs2 s, ∃ t v, exec (.or rd rs1 rs2) s = .next t ∧ RegisterWritten rd v s t ∧
    (∀ k, v.getLsbD k = ((s.readReg rs1).getLsbD k || (s.readReg rs2).getLsbD k)) ∧
    t.pc = s.pc + 4 ∧ MemoryKept s t ∧ t.status = s.status) ∧
  (∀ rd rs1 rs2 s, ∃ t v, exec (.xor rd rs1 rs2) s = .next t ∧ RegisterWritten rd v s t ∧
    (∀ k, v.getLsbD k = ((s.readReg rs1).getLsbD k ^^ (s.readReg rs2).getLsbD k)) ∧
    t.pc = s.pc + 4 ∧ MemoryKept s t ∧ t.status = s.status)

/-! ### Register-immediate ALU -/

/-- R160: funct3 selects ADDI, SLTI or SLTIU, or none; what is selected completes, writes only rd, goes on
at pc + 4, leaves Memory alone, and its result depends on nothing but x[rs1] and the immediate. -/
def Obligations.ImmediateAluSelectsAndTouchesOnlyItsRegisters : Prop :=
  ∀ w : Word, opcodeOf w = 0x13 →
    (funct3Of w = 0x0 → decode w = .instr (.addi (rdOf w) (rs1Of w) (immI w))) ∧
    (funct3Of w = 0x2 → decode w = .instr (.slti (rdOf w) (rs1Of w) (immI w))) ∧
    (funct3Of w = 0x3 → decode w = .instr (.sltiu (rdOf w) (rs1Of w) (immI w))) ∧
    (funct3Of w ∉ ([0x0, 0x2, 0x3] : List Funct3) → decode w = .unsupportedInstruction 0x13) ∧
    (∀ i s, decode w = .instr i → ∃ t, exec i s = .next t ∧ (∃ v, RegisterWritten (rdOf w) v s t) ∧
      t.pc = s.pc + 4 ∧ MemoryKept s t ∧ t.status = s.status) ∧
    (∀ i s s' t t', decode w = .instr i → s.readReg (rs1Of w) = s'.readReg (rs1Of w) →
      exec i s = .next t → exec i s' = .next t' → t.readReg (rdOf w) = t'.readReg (rdOf w))

/-- R161: ADDI completes from every state and writes the sum of the register and the immediate, modulo
2^32 (D5, log entry 7). -/
def Obligations.AddiWritesWrappedSum : Prop :=
  ∀ rd rs1 imm s, ∃ t v, exec (.addi rd rs1 imm) s = .next t ∧ RegisterWritten rd v s t ∧
    u32 v = (u32 (s.readReg rs1) + u32 imm) % 2 ^ 32 ∧
    t.pc = s.pc + 4 ∧ MemoryKept s t ∧ t.status = s.status

/-- R162: the encoding of SLTI; it completes from every state and writes 1 exactly when x[rs1] is less than
the immediate, both read signed. -/
def Obligations.SltiComparesSigned : Prop :=
  (∀ w : Word, w &&& 0x0000707F = 0x00002013 → decode w = .instr (.slti (rdOf w) (rs1Of w) (immI w))) ∧
  (∀ rd rs1 imm s, ∃ t v, exec (.slti rd rs1 imm) s = .next t ∧ RegisterWritten rd v s t ∧
    (s32 (s.readReg rs1) < s32 imm → v = 1) ∧ (s32 imm ≤ s32 (s.readReg rs1) → v = 0) ∧
    t.pc = s.pc + 4 ∧ MemoryKept s t ∧ t.status = s.status)

/-- R163: the encoding of SLTIU; it completes from every state and writes 1 exactly when x[rs1] is less than
the sign-extended immediate, both read unsigned. -/
def Obligations.SltiuComparesUnsigned : Prop :=
  (∀ w : Word, w &&& 0x0000707F = 0x00003013 → decode w = .instr (.sltiu (rdOf w) (rs1Of w) (immI w))) ∧
  (∀ rd rs1 imm s, ∃ t v, exec (.sltiu rd rs1 imm) s = .next t ∧ RegisterWritten rd v s t ∧
    (u32 (s.readReg rs1) < u32 imm → v = 1) ∧ (u32 imm ≤ u32 (s.readReg rs1) → v = 0) ∧
    t.pc = s.pc + 4 ∧ MemoryKept s t ∧ t.status = s.status)

/-! ### Upper immediates and JAL -/

/-- R220: the encoding of LUI; it completes from every state and writes the immediate, whose low 12 bits
are 0 as decoded. -/
def Obligations.LuiWritesTheUpperImmediate : Prop :=
  (∀ w : Word, w &&& 0x0000007F = 0x00000037 →
    decode w = .instr (.lui (rdOf w) (immU w)) ∧ u32 (immU w) % 4096 = 0) ∧
  (∀ rd imm s, ∃ t, exec (.lui rd imm) s = .next t ∧ RegisterWritten rd imm s t ∧ t.pc = s.pc + 4 ∧
    MemoryKept s t ∧ t.status = s.status)

/-- R221: the encoding of AUIPC; it completes from every state and writes its own address plus the
immediate, modulo 2^32 (D5, log entry 7). -/
def Obligations.AuipcWritesPcPlusImmediate : Prop :=
  (∀ w : Word, w &&& 0x0000007F = 0x00000017 → decode w = .instr (.auipc (rdOf w) (immU w))) ∧
  (∀ rd imm s, ∃ t v, exec (.auipc rd imm) s = .next t ∧ RegisterWritten rd v s t ∧
    u32 v = (u32 s.pc + u32 imm) % 2 ^ 32 ∧ t.pc = s.pc + 4 ∧ MemoryKept s t ∧ t.status = s.status)

/-- R230: the encoding of JAL; it completes from every state, whatever its target, writes its own address
plus 4 to rd and goes on at its own address plus the immediate, both modulo 2^32 (D5, log entry 7). -/
def Obligations.JalLinksAndJumps : Prop :=
  (∀ w : Word, w &&& 0x0000007F = 0x0000006F → decode w = .instr (.jal (rdOf w) (immJ w))) ∧
  (∀ rd imm s, ∃ t v, exec (.jal rd imm) s = .next t ∧ RegisterWritten rd v s t ∧
    u32 v = (u32 s.pc + 4) % 2 ^ 32 ∧ u32 t.pc = (u32 s.pc + u32 imm) % 2 ^ 32 ∧
    MemoryKept s t ∧ t.status = s.status)

/-! ### Branches -/

/-- R202, R203: BEQ and BNE complete from every state and go to pc + imm when the registers are equal, or
not equal, and else to pc + 4. The comparisons are the RV32I ones (D13, log entry 12). -/
def Obligations.BeqAndBneDecideOnEquality : Prop :=
  (∀ rs1 rs2 imm s, ∃ t, exec (.beq rs1 rs2 imm) s = .next t ∧
    (s.readReg rs1 = s.readReg rs2 → t.pc = s.pc + imm) ∧
    (s.readReg rs1 ≠ s.readReg rs2 → t.pc = s.pc + 4) ∧
    RegistersKept s t ∧ MemoryKept s t ∧ t.status = s.status) ∧
  (∀ rs1 rs2 imm s, ∃ t, exec (.bne rs1 rs2 imm) s = .next t ∧
    (s.readReg rs1 ≠ s.readReg rs2 → t.pc = s.pc + imm) ∧
    (s.readReg rs1 = s.readReg rs2 → t.pc = s.pc + 4) ∧
    RegistersKept s t ∧ MemoryKept s t ∧ t.status = s.status)

/-- R204, R205: BLT and BGE complete from every state and decide on the signed order (D13, log entry 12). -/
def Obligations.BltAndBgeDecideOnSignedOrder : Prop :=
  (∀ rs1 rs2 imm s, ∃ t, exec (.blt rs1 rs2 imm) s = .next t ∧
    (s32 (s.readReg rs1) < s32 (s.readReg rs2) → t.pc = s.pc + imm) ∧
    (s32 (s.readReg rs2) ≤ s32 (s.readReg rs1) → t.pc = s.pc + 4) ∧
    RegistersKept s t ∧ MemoryKept s t ∧ t.status = s.status) ∧
  (∀ rs1 rs2 imm s, ∃ t, exec (.bge rs1 rs2 imm) s = .next t ∧
    (s32 (s.readReg rs2) ≤ s32 (s.readReg rs1) → t.pc = s.pc + imm) ∧
    (s32 (s.readReg rs1) < s32 (s.readReg rs2) → t.pc = s.pc + 4) ∧
    RegistersKept s t ∧ MemoryKept s t ∧ t.status = s.status)

/-- R206, R207: BLTU and BGEU complete from every state and decide on the unsigned order (D13, log
entry 12). -/
def Obligations.BltuAndBgeuDecideOnUnsignedOrder : Prop :=
  (∀ rs1 rs2 imm s, ∃ t, exec (.bltu rs1 rs2 imm) s = .next t ∧
    (u32 (s.readReg rs1) < u32 (s.readReg rs2) → t.pc = s.pc + imm) ∧
    (u32 (s.readReg rs2) ≤ u32 (s.readReg rs1) → t.pc = s.pc + 4) ∧
    RegistersKept s t ∧ MemoryKept s t ∧ t.status = s.status) ∧
  (∀ rs1 rs2 imm s, ∃ t, exec (.bgeu rs1 rs2 imm) s = .next t ∧
    (u32 (s.readReg rs2) ≤ u32 (s.readReg rs1) → t.pc = s.pc + imm) ∧
    (u32 (s.readReg rs1) < u32 (s.readReg rs2) → t.pc = s.pc + 4) ∧
    RegistersKept s t ∧ MemoryKept s t ∧ t.status = s.status)

/-! ### Memory, load and store -/

/-- R62: a word access composes the four consecutive bytes, the least significant at the lowest address. -/
def Obligations.WordReadComposesFourBytes : Prop :=
  ∀ (m : Memory) (addr : Word),
    u32 (m.readWord addr) = (m.readByte (u32 addr)).toNat + 2 ^ 8 * (m.readByte (u32 addr + 1)).toNat +
      2 ^ 16 * (m.readByte (u32 addr + 2)).toNat + 2 ^ 24 * (m.readByte (u32 addr + 3)).toNat

/-- R63: in bounds, a word write sets the four bytes, the least significant at the lowest address, and
changes no other byte. The Memory is canonical, which every reachable one is
(`StepKeepsTheInvariant`). -/
def Obligations.WordWriteSetsFourBytesAndNoOther : Prop :=
  ∀ (m : Memory) (addr v : Word), m.wf → u32 addr + 4 ≤ m.capacity →
    (∀ k : Nat, k < 4 → ((m.writeWord addr v).readByte (u32 addr + k)).toNat = u32 v / 2 ^ (8 * k) % 2 ^ 8) ∧
    (∀ a : Nat, (a < u32 addr ∨ u32 addr + 4 ≤ a) → (m.writeWord addr v).readByte a = m.readByte a) ∧
    (m.writeWord addr v).capacity = m.capacity

/-- R180, R181 where it does not fault: the encoding of LW; when the four bytes at ea are backed it
completes, writes the word they compose to rd, aligned or not, and leaves Memory alone. That ea wraps, that
no alignment is needed and where the bound lies are the spec's own decisions (D5, D7, D8, log entries 7, 9
and 6). -/
def Obligations.LwLoadsTheWordInBounds : Prop :=
  (∀ w : Word, w &&& 0x0000707F = 0x00002003 → decode w = .instr (.lw (rdOf w) (rs1Of w) (immI w))) ∧
  (∀ rd rs1 imm s, u32 (effectiveAddress s rs1 imm) = (u32 (s.readReg rs1) + u32 imm) % 2 ^ 32 ∧
    (u32 (effectiveAddress s rs1 imm) + 4 ≤ s.mem.capacity →
      ∃ t v, exec (.lw rd rs1 imm) s = .next t ∧ RegisterWritten rd v s t ∧
        u32 v = (s.mem.readByte (u32 (effectiveAddress s rs1 imm))).toNat +
          2 ^ 8 * (s.mem.readByte (u32 (effectiveAddress s rs1 imm) + 1)).toNat +
          2 ^ 16 * (s.mem.readByte (u32 (effectiveAddress s rs1 imm) + 2)).toNat +
          2 ^ 24 * (s.mem.readByte (u32 (effectiveAddress s rs1 imm) + 3)).toNat ∧
        t.pc = s.pc + 4 ∧ MemoryKept s t ∧ t.status = s.status))

/-- R190, R191 where it does not fault: the encoding of SW; when the four bytes at ea are backed it
completes, stores x[rs2] in them, the least significant byte lowest, and leaves every other byte and every
register. The decisions are those of LW (D5, D7, D8). -/
def Obligations.SwStoresTheWordInBounds : Prop :=
  (∀ w : Word, w &&& 0x0000707F = 0x00002023 → decode w = .instr (.sw (rs1Of w) (rs2Of w) (immS w))) ∧
  (∀ rs1 rs2 imm s, s.mem.wf → u32 (effectiveAddress s rs1 imm) + 4 ≤ s.mem.capacity →
    ∃ t, exec (.sw rs1 rs2 imm) s = .next t ∧ RegistersKept s t ∧ t.pc = s.pc + 4 ∧ t.status = s.status ∧
      (∀ k : Nat, k < 4 → (t.mem.readByte (u32 (effectiveAddress s rs1 imm) + k)).toNat =
        u32 (s.readReg rs2) / 2 ^ (8 * k) % 2 ^ 8) ∧
      (∀ ea, ea = effectiveAddress s rs1 imm → MemoryKeptOutside ea s t))

/-- R64, R283 for data: an LW or SW one of whose four bytes is not backed enters Faulted(MemoryOutOfBounds,
ea) with no other effect, whatever rd is. Where the bound lies and what is recorded are the spec's own
decisions (D8, D9, log entries 6 and 1). -/
def Obligations.LoadAndStoreOutOfBoundsFault : Prop :=
  (∀ rd rs1 imm s, s.mem.capacity < u32 (effectiveAddress s rs1 imm) + 4 →
    ∃ t, exec (.lw rd rs1 imm) s = .next t ∧
      Faulted .memoryOutOfBounds (effectiveAddress s rs1 imm) s t) ∧
  (∀ rs1 rs2 imm s, s.mem.capacity < u32 (effectiveAddress s rs1 imm) + 4 →
    ∃ t, exec (.sw rs1 rs2 imm) s = .next t ∧
      Faulted .memoryOutOfBounds (effectiveAddress s rs1 imm) s t)

/-- R74: a word stored over the next instruction is what the next fetch gives, with no fence. -/
def Obligations.StoreIsSeenByTheNextFetch : Prop :=
  ∀ s w rs1 rs2 imm, Fetches s w → s.mem.wf → decode w = .instr (.sw rs1 rs2 imm) →
    effectiveAddress s rs1 imm = s.pc + 4 → u32 s.pc + 8 ≤ s.mem.capacity → s.mem.capacity ≤ 2 ^ 32 - 4 →
    ∃ t, step s = .next t ∧ Fetches t (s.readReg rs2)

/-! ### The controller -/

/-- R256, R257: a step whose fetch gives a word that decodes to an instruction is that instruction's
execution, and nothing is added around it. (The halt word decodes to none.) -/
def Obligations.StepRunsTheDecodedInstruction : Prop :=
  ∀ s w i, Fetches s w → decode w = .instr i → step s = exec i s

/-- R253: a fetch whose four bytes are not all backed enters Faulted(MemoryOutOfBounds, pc) and changes
nothing else; otherwise, from an aligned pc, the word at pc is read. That a pc both unbacked and misaligned
gives this kind, where the bound lies for a fetch that straddles it, and what is recorded are the spec's own
decisions (D10, D8, D9, log entries 10, 6 and 1). -/
def Obligations.FetchOutOfBoundsFaults : Prop :=
  (∀ s, s.status = .running → s.mem.capacity < u32 s.pc + 4 →
    ∃ t, step s = .next t ∧ Faulted .memoryOutOfBounds s.pc s t) ∧
  (∀ s : State, u32 s.pc + 4 ≤ s.mem.capacity → u32 s.pc % 4 = 0 →
    fetch s = .word (s.mem.readWord s.pc))

/-- R254: a backed fetch at a pc that is not a multiple of 4 enters Faulted(AlignmentViolation, pc) and
changes nothing else; a JAL that went there had completed, its link write included. The Faulted status with
the pc recorded, and that the target and the link wrap, are the spec's own decisions (D9, D5, log entries 1
and 7). -/
def Obligations.MisalignedFetchFaults : Prop :=
  (∀ s, s.status = .running → u32 s.pc + 4 ≤ s.mem.capacity → u32 s.pc % 4 ≠ 0 →
    ∃ t, step s = .next t ∧ Faulted .alignmentViolation s.pc s t) ∧
  (∀ s w rd imm, Fetches s w → decode w = .instr (.jal rd imm) → u32 (s.pc + imm) % 4 ≠ 0 →
    u32 (s.pc + imm) + 4 ≤ s.mem.capacity →
    ∃ t u, step s = .next t ∧ RegisterWritten rd (s.pc + 4) s t ∧ t.pc = s.pc + imm ∧
      step t = .next u ∧ Faulted .alignmentViolation (s.pc + imm) t u)

/-- R255: the zero word ends the run in Halted, with registers, Memory and pc as they were and no report.
That the pc stays is the spec's own derivation. -/
def Obligations.HaltWordHalts : Prop :=
  ∀ s, Fetches s 0 → ∃ t, step s = .next t ∧ t.status = .halted ∧ t.pc = s.pc ∧ t.mem = s.mem ∧
    (∀ r, t.readReg r = s.readReg r) ∧ s.report = none

/-- R240: a non-zero word whose opcode is outside the eight is reported with its pc and only advances the
pc by 4; no register and no byte changes, x0 reads 0, and the run goes on. What the report carries is the
spec's own decision (D14), and that it is a function of the state is the model's choice (log entry 11). -/
def Obligations.UnsupportedOpcodeIsReportedAndSkipped : Prop :=
  ∀ s w, Fetches s w → w ≠ 0 →
    opcodeOf w ∉ ([0x33, 0x13, 0x03, 0x23, 0x63, 0x37, 0x17, 0x6F] : List Opcode) →
    s.report = some { error := .unsupportedOpcode, pc := s.pc, word := w } ∧
    ∃ t, step s = .next t ∧ RegistersKept s t ∧ MemoryKept s t ∧ t.pc = s.pc + 4 ∧ t.status = .running

/-- R241: a word of a supported opcode whose funct3, or funct3 and funct7, select no instruction is reported
with its pc and only advances the pc by 4; an unsupported load or store makes no access and faults at no
address. That AND, OR and XOR with a non-zero funct7 are among these words is the spec's own decision (D6,
log entry 8); so is what the report carries (D14), and that it is a function of the state is the model's
choice (log entry 11). -/
def Obligations.UnsupportedInstructionIsReportedAndSkipped : Prop :=
  ∀ s w, Fetches s w →
    (opcodeOf w = 0x33 ∧ (funct3Of w, funct7Of w) ∉
        ([(0x0, 0x00), (0x0, 0x20), (0x7, 0x00), (0x6, 0x00), (0x4, 0x00)] : List (Funct3 × Funct7)) ∨
      opcodeOf w = 0x13 ∧ funct3Of w ∈ ([0x1, 0x4, 0x5, 0x6, 0x7] : List Funct3) ∨
      opcodeOf w = 0x03 ∧ funct3Of w ≠ 0x2 ∨ opcodeOf w = 0x23 ∧ funct3Of w ≠ 0x2 ∨
      opcodeOf w = 0x63 ∧ funct3Of w ∈ ([0x2, 0x3] : List Funct3)) →
    s.report = some { error := .unsupportedInstruction, pc := s.pc, word := w } ∧
    ∃ t, step s = .next t ∧ RegistersKept s t ∧ MemoryKept s t ∧ t.pc = s.pc + 4 ∧ t.status = .running

/-- R34: after a cycle that decoded and executed a word, unsupported or not, x0 reads 0, whatever it held
before. -/
def Obligations.ZeroEnforcementEndsEveryExecutedCycle : Prop :=
  ∀ s t w, Fetches s w → w ≠ 0 → step s = .next t → t.status = .running → t.readReg 0 = 0

/-- R33: a step changes at most one register besides x0, and only the rd of an instruction that writes one;
SW, the branches, unsupported words, the halt word and an instruction that raises a fatal error change
none. -/
def Obligations.OnlyTheDestinationRegisterIsWritten : Prop :=
  (∀ s t r, step s = .next t → r ≠ 0 → t.readReg r ≠ s.readReg r →
    ∃ w i, Fetches s w ∧ decode w = .instr i ∧ destOf i = some r ∧ r = rdOf w ∧ t.status = .running) ∧
  (∀ i : Instr, destOf i = none ↔
    i.matchWord ∈ ([0x2023, 0x63, 0x1063, 0x4063, 0x5063, 0x6063, 0x7063] : List Word))

/-- R47, R63: a step that changes a byte of Memory fetched an SW, and the byte is one of the four at its
effective address. -/
def Obligations.OnlySwChangesMemory : Prop :=
  ∀ s t a, step s = .next t → t.mem.readByte a ≠ s.mem.readByte a →
    ∃ w, Fetches s w ∧ w &&& 0x0000707F = 0x00002023 ∧
      u32 (effectiveAddress s (rs1Of w) (immS w)) ≤ a ∧ a < u32 (effectiveAddress s (rs1Of w) (immS w)) + 4

/-- R40: an executed cycle goes on at pc + 4, unless its word is a branch or JAL, which may go to pc + imm.
That the sums wrap is the spec's own decision (D5, log entry 7). -/
def Obligations.PcAdvancesByFourUnlessTransferred : Prop :=
  ∀ s t w, Fetches s w → step s = .next t → t.status = .running →
    t.pc = s.pc + 4 ∨ (opcodeOf w = 0x63 ∧ t.pc = s.pc + immB w) ∨
      (opcodeOf w = 0x6F ∧ t.pc = s.pc + immJ w)

/-- R49: the sequential advance does not wrap, and from the last word of Memory it reaches CAPACITY, where
the next fetch is out of bounds. The rule is the spec's own derivation. -/
def Obligations.SequentialAdvanceDoesNotWrap : Prop :=
  ∀ s t w, s.Inv → Fetches s w → step s = .next t → t.status = .running → t.pc = s.pc + 4 →
    u32 t.pc = u32 s.pc + 4 ∧
    (u32 s.pc + 4 = s.mem.capacity → ∃ u, step t = .next u ∧ Faulted .memoryOutOfBounds t.pc t u)

/-- R283, R286: a step that enters Faulted from a run changes nothing but the status, and the recorded
address is the pc of a failed fetch or the effective address of a failed LW or SW (D9, log entry 1). -/
def Obligations.FatalErrorsArePrecise : Prop :=
  ∀ s t k a, s.status = .running → step s = .next t → t.status = .faulted k a →
    (∀ r, t.readReg r = s.readReg r) ∧ t.mem = s.mem ∧ t.pc = s.pc ∧
    (a = s.pc ∨ ∃ w i, Fetches s w ∧ decode w = .instr i ∧ k = .memoryOutOfBounds ∧
      ((∃ rd rs1 imm, i = .lw rd rs1 imm ∧ a = effectiveAddress s rs1 imm) ∨
        ∃ rs1 rs2 imm, i = .sw rs1 rs2 imm ∧ a = effectiveAddress s rs1 imm))

/-- R263: a run ends in exactly these cases: a fetch that is not backed, a fetch that is misaligned, the
zero word, and an LW or SW whose bytes are not all backed. There is no other end, and no step limit (D20,
log entry 14). -/
def Obligations.RunEndsExactlyAtHaltOrFatalError : Prop :=
  ∀ s t, s.status = .running → step s = .next t →
    (t.status ≠ .running ↔
      s.mem.capacity < u32 s.pc + 4 ∨ u32 s.pc % 4 ≠ 0 ∨ s.mem.readWord s.pc = 0 ∨
      (∃ rd rs1 imm, decode (s.mem.readWord s.pc) = .instr (.lw rd rs1 imm) ∧
        s.mem.capacity < u32 (effectiveAddress s rs1 imm) + 4) ∨
      (∃ rs1 rs2 imm, decode (s.mem.readWord s.pc) = .instr (.sw rs1 rs2 imm) ∧
        s.mem.capacity < u32 (effectiveAddress s rs1 imm) + 4))

/-- R242, R280: every step answers a next state: no word of Memory is refused, and no error is a fault of
the step. (That a machine with no run in progress keeps its state is the model's choice, log entry 2.) -/
def Obligations.EveryStepAnswersANextState : Prop :=
  (∀ s, ∃ t, step s = .next t) ∧ (∀ s, s.status ≠ .running → step s = .next s)

/-! ### The invariant -/

/-- The invariant of the machine (x0 reads 0, R35; canonical Memory of an allowed CAPACITY, R9; an even pc,
R97 and R99; a status that agrees with the pc and the recorded address, R253 to R255) is kept by every
step, from every state that meets it. -/
def Obligations.StepKeepsTheInvariant : Prop :=
  ∀ s t, s.Inv → step s = .next t → t.Inv

/-- It holds at construction for every allowed CAPACITY and every REG_INIT, and so at reset. -/
def Obligations.ConstructionMeetsTheInvariant : Prop :=
  (∀ c : Config, capacityAllowed c.capacity → (State.construct c).Inv) ∧ State.reset.Inv

/-- R50: construction gives x0 = 0, x1 to x31 their REG_INIT, pc 0, every byte 0x00 and status Idle, for
every parameter. REG_INIT, the zero fill and Idle are marked by the spec as open or its own decision (D3,
D4, D11). That `State.reset` has CAPACITY 0x00100000, the default of R9 (D2), is the model's choice (log
entry 4); that it takes REG_INIT zero is the model's choice too (log entry 3), and no clause states it. -/
def Obligations.ConstructionValues : Prop :=
  (∀ c : Config, (State.construct c).readReg 0 = 0 ∧
    (∀ r : RegIdx, r ≠ 0 → (State.construct c).readReg r = c.regInit[r.toNat]'(r.isLt)) ∧
    (State.construct c).pc = 0 ∧ (∀ a, (State.construct c).mem.readByte a = 0) ∧
    (State.construct c).mem.capacity = c.capacity ∧ (State.construct c).status = .idle) ∧
  State.reset.mem.capacity = 0x00100000 ∧ ∃ c, State.reset = State.construct c

/-! ### The host interface -/

/-- R311: `load_bytes` while no run is in progress writes the bytes verbatim when they all lie below
CAPACITY and changes nothing else; otherwise it writes nothing; during a run it is not accepted. The range
rule and the acceptance rule are the spec's own decisions (D12, D17, log entry 13); that a request during a
run is answered runInProgress is the model's choice (log entry 13). -/
def Obligations.LoadBytesWritesVerbatimOrNothing : Prop :=
  ∀ (s : State) (offset : Nat) (bytes : List Byte),
    (s.status ≠ .running → s.mem.wf → offset + bytes.length ≤ s.mem.capacity →
      ∃ t, loadBytes offset bytes s = .ok t ∧
        (∀ (k : Nat) (hk : k < bytes.length), t.mem.readByte (offset + k) = bytes[k]) ∧
        (∀ a : Nat, (a < offset ∨ offset + bytes.length ≤ a) → t.mem.readByte a = s.mem.readByte a) ∧
        t.mem.capacity = s.mem.capacity ∧ (∀ r, t.readReg r = s.readReg r) ∧ t.pc = s.pc ∧
        t.status = s.status) ∧
    (s.status ≠ .running → s.mem.capacity < offset + bytes.length →
      loadBytes offset bytes s = .memoryOutOfBounds) ∧
    (s.status = .running → loadBytes offset bytes s = .runInProgress)

/-- R313, R51: a run is accepted from Idle, Halted and Faulted, and sets Running and pc 0 with registers and
Memory kept; during a run it is not accepted. The lifecycle and the acceptance rule are the spec's own
decisions (D11, D17, log entry 13); that a request during a run is answered runInProgress is the model's
choice (log entry 13). -/
def Obligations.RunStartsAtZeroWithStateKept : Prop :=
  ∀ s : State,
    (s.status ≠ .running → ∃ t, requestRun s = .ok t ∧ t.status = .running ∧ t.pc = 0 ∧ t.mem = s.mem ∧
      ∀ r, t.readReg r = s.readReg r) ∧
    (s.status = .running → requestRun s = .runInProgress)

/-- R314: inspection while no run is in progress answers the register, the byte below CAPACITY, the pc and
the status; a byte at or above CAPACITY is refused (D12, D17, log entry 13). In a state that meets the
invariant x0 is inspected as 0 (R35). -/
def Obligations.InspectionAnswersTheState : Prop :=
  ∀ s : State, s.status ≠ .running →
    (∀ r, inspectRegister r s = .ok (s.readReg r)) ∧
    (∀ a, a < s.mem.capacity → inspectByte a s = .ok (s.mem.readByte a)) ∧
    (∀ a, s.mem.capacity ≤ a → inspectByte a s = .memoryOutOfBounds) ∧
    inspectPc s = .ok s.pc ∧ inspectStatus s = .ok s.status ∧
    (s.Inv → inspectRegister 0 s = .ok 0)

/-- The host's two requests that change the state keep the invariant. -/
def Obligations.HostRequestsKeepTheInvariant : Prop :=
  (∀ s t offset bytes, s.Inv → loadBytes offset bytes s = .ok t → t.Inv) ∧
  (∀ s t, s.Inv → requestRun s = .ok t → t.Inv)

/-- R264, R313: a run that ends presents exit signal 0 when it ended at the halt word, 3 at
MemoryOutOfBounds and 4 at AlignmentViolation, with the recorded address; more fuel changes nothing once
it has ended. The numbers are the spec's own decision (D9, log entry 1). -/
def Obligations.EndedRunPresentsItsExitSignal : Prop :=
  ∀ (fuel : Nat) (s t : State), s.status = .running → runCycles fuel s = some t →
    (t.status = .halted ∧ exitSignal t.status = some 0 ∨
      (∃ a, t.status = .faulted .memoryOutOfBounds a ∧ exitSignal t.status = some 3 ∧
        faultAddress t.status = some a) ∨
      ∃ a, t.status = .faulted .alignmentViolation a ∧ exitSignal t.status = some 4 ∧
        faultAddress t.status = some a) ∧
    ∀ more : Nat, runCycles (fuel + more) s = some t

/-- R281: the codes 1 to 4. A cycle that reports a recoverable error leaves the run going, with no exit
signal; a cycle that ends in a fatal one reports nothing, and the exit signal is the code of its kind (R282,
R283, R284). The numbers and what Faulted records are the spec's own decision (D9, log entry 1); that a
report is a function of the state is the model's choice (log entry 11). -/
def Obligations.ErrorCodesFollowTheirClass : Prop :=
  (RecoverableKind.unsupportedOpcode.code = 1 ∧ RecoverableKind.unsupportedInstruction.code = 2 ∧
    FatalKind.memoryOutOfBounds.code = 3 ∧ FatalKind.alignmentViolation.code = 4) ∧
  (∀ s r, s.report = some r →
    ∃ t, step s = .next t ∧ t.status = .running ∧ exitSignal t.status = none) ∧
  (∀ s t k a, s.status = .running → step s = .next t → t.status = .faulted k a →
    exitSignal t.status = some k.code ∧ s.report = none)
end

