-- ==== Sys2Proof/Laws/Decode.lean ====
section
/-! SUPPORT. The small lemmas of the decoder and the encoder: the decode unit's answer for each opcode, the
fields of a packed word, and the ranges of the immediates. -/

namespace Sys2Proof

/-! ### The decode unit, by opcode -/

theorem decodeUnit_r {w : Word} (h : opcodeOf w = 0x33) :
    decodeUnit w = .r 0x33 (rdOf w) (funct3Of w) (rs1Of w) (rs2Of w) (funct7Of w) := by
  simp [decodeUnit, h]
theorem decodeUnit_i_alu {w : Word} (h : opcodeOf w = 0x13) :
    decodeUnit w = .i 0x13 (rdOf w) (funct3Of w) (rs1Of w) (immI w) := by
  simp [decodeUnit, h]
theorem decodeUnit_i_load {w : Word} (h : opcodeOf w = 0x03) :
    decodeUnit w = .i 0x03 (rdOf w) (funct3Of w) (rs1Of w) (immI w) := by
  simp [decodeUnit, h]
theorem decodeUnit_s {w : Word} (h : opcodeOf w = 0x23) :
    decodeUnit w = .s 0x23 (funct3Of w) (rs1Of w) (rs2Of w) (immS w) := by
  simp [decodeUnit, h]
theorem decodeUnit_b {w : Word} (h : opcodeOf w = 0x63) :
    decodeUnit w = .b 0x63 (funct3Of w) (rs1Of w) (rs2Of w) (immB w) := by
  simp [decodeUnit, h]
theorem decodeUnit_lui {w : Word} (h : opcodeOf w = 0x37) :
    decodeUnit w = .u 0x37 (rdOf w) (immU w) := by
  simp [decodeUnit, h]
theorem decodeUnit_auipc {w : Word} (h : opcodeOf w = 0x17) :
    decodeUnit w = .u 0x17 (rdOf w) (immU w) := by
  simp [decodeUnit, h]
theorem decodeUnit_j {w : Word} (h : opcodeOf w = 0x6F) :
    decodeUnit w = .j 0x6F (rdOf w) (immJ w) := by
  simp [decodeUnit, h]

/-- The eight supported opcodes (30_encoding.md R93), as a case split. -/
theorem decodeUnit_unsupported {w : Word} (h33 : opcodeOf w ≠ 0x33) (h13 : opcodeOf w ≠ 0x13)
    (h03 : opcodeOf w ≠ 0x03) (h23 : opcodeOf w ≠ 0x23) (h63 : opcodeOf w ≠ 0x63) (h37 : opcodeOf w ≠ 0x37)
    (h17 : opcodeOf w ≠ 0x17) (h6F : opcodeOf w ≠ 0x6F) : decodeUnit w = .unsupported (opcodeOf w) := by
  simp_all [decodeUnit]

/-! ### The fields of a packed word -/

/-- Bit k of a field is bit lo + k of the word. -/
theorem getLsbD_field (w : Word) (lo len k : Nat) :
    (field w lo len).getLsbD k = (decide (k < len) && w.getLsbD (lo + k)) := by
  simp [field, BitVec.getLsbD_extractLsb']

/-- Bit k of a sign-extended field: the field's own bit below its top bit, the top bit from there on. -/
theorem getLsbD_sext {n : Nat} (v : BitVec n) (k : Nat) (hk : k < 32) :
    (sext v).getLsbD k = if k < n then v.getLsbD k else v.msb := by
  simp only [sext, BitVec.getLsbD_signExtend, hk, decide_true, Bool.true_and]

/-- A field of a concatenation that lies in its low part. -/
theorem extractLsb'_append_low {m n : Nat} (a : BitVec m) (b : BitVec n) {lo len : Nat} (h : lo + len ≤ n) :
    (a ++ b).extractLsb' lo len = b.extractLsb' lo len := by
  apply BitVec.eq_of_getLsbD_eq
  intro i hi
  simp only [BitVec.getLsbD_extractLsb', BitVec.getLsbD_append]
  rw [if_pos (by omega)]

/-- A field of a concatenation that lies in its high part. -/
theorem extractLsb'_append_high {m n : Nat} (a : BitVec m) (b : BitVec n) {lo len : Nat} (h : n ≤ lo) :
    (a ++ b).extractLsb' lo len = a.extractLsb' (lo - n) len := by
  apply BitVec.eq_of_getLsbD_eq
  intro i hi
  simp only [BitVec.getLsbD_extractLsb', BitVec.getLsbD_append]
  rw [if_neg (by omega), show lo + i - n = lo - n + i by omega]

/-- Each field of a packed R word is the part put there (30_encoding.md R105). -/
theorem packR_fields (op : Opcode) (rd : RegIdx) (f3 : Funct3) (rs1 rs2 : RegIdx) (f7 : Funct7) :
    opcodeOf (packR op rd f3 rs1 rs2 f7) = op ∧
    rdOf (packR op rd f3 rs1 rs2 f7) = rd ∧
    funct3Of (packR op rd f3 rs1 rs2 f7) = f3 ∧
    rs1Of (packR op rd f3 rs1 rs2 f7) = rs1 ∧
    rs2Of (packR op rd f3 rs1 rs2 f7) = rs2 ∧
    funct7Of (packR op rd f3 rs1 rs2 f7) = f7 := by
  refine ⟨?_, ?_, ?_, ?_, ?_, ?_⟩
  · show BitVec.extractLsb' 0 7 (packR ..) = _
    rw [packR, extractLsb'_append_low (h := by decide), BitVec.extractLsb'_eq_self]
  · show BitVec.extractLsb' 7 5 (packR ..) = _
    rw [packR, extractLsb'_append_high (h := by decide), extractLsb'_append_low (h := by decide), BitVec.extractLsb'_eq_self]
  · show BitVec.extractLsb' 12 3 (packR ..) = _
    rw [packR, extractLsb'_append_high (h := by decide), extractLsb'_append_high (h := by decide), extractLsb'_append_low (h := by decide), BitVec.extractLsb'_eq_self]
  · show BitVec.extractLsb' 15 5 (packR ..) = _
    rw [packR, extractLsb'_append_high (h := by decide), extractLsb'_append_high (h := by decide), extractLsb'_append_high (h := by decide), extractLsb'_append_low (h := by decide), BitVec.extractLsb'_eq_self]
  · show BitVec.extractLsb' 20 5 (packR ..) = _
    rw [packR, extractLsb'_append_high (h := by decide), extractLsb'_append_high (h := by decide), extractLsb'_append_high (h := by decide), extractLsb'_append_high (h := by decide), extractLsb'_append_low (h := by decide), BitVec.extractLsb'_eq_self]
  · show BitVec.extractLsb' 25 7 (packR ..) = _
    rw [packR, extractLsb'_append_high (h := by decide), extractLsb'_append_high (h := by decide), extractLsb'_append_high (h := by decide), extractLsb'_append_high (h := by decide), extractLsb'_append_high (h := by decide), BitVec.extractLsb'_eq_self]

/-- Each field of a packed I word is the part put there (30_encoding.md R105). -/
theorem packI_fields (op : Opcode) (rd : RegIdx) (f3 : Funct3) (rs1 : RegIdx) (imm : Word) :
    opcodeOf (packI op rd f3 rs1 imm) = op ∧
    rdOf (packI op rd f3 rs1 imm) = rd ∧
    funct3Of (packI op rd f3 rs1 imm) = f3 ∧
    rs1Of (packI op rd f3 rs1 imm) = rs1 ∧
    field (packI op rd f3 rs1 imm) 20 12 = field imm 0 12 := by
  refine ⟨?_, ?_, ?_, ?_, ?_⟩
  · show BitVec.extractLsb' 0 7 (packI ..) = _
    rw [packI, extractLsb'_append_low (h := by decide), BitVec.extractLsb'_eq_self]
  · show BitVec.extractLsb' 7 5 (packI ..) = _
    rw [packI, extractLsb'_append_high (h := by decide), extractLsb'_append_low (h := by decide), BitVec.extractLsb'_eq_self]
  · show BitVec.extractLsb' 12 3 (packI ..) = _
    rw [packI, extractLsb'_append_high (h := by decide), extractLsb'_append_high (h := by decide), extractLsb'_append_low (h := by decide), BitVec.extractLsb'_eq_self]
  · show BitVec.extractLsb' 15 5 (packI ..) = _
    rw [packI, extractLsb'_append_high (h := by decide), extractLsb'_append_high (h := by decide), extractLsb'_append_high (h := by decide), extractLsb'_append_low (h := by decide), BitVec.extractLsb'_eq_self]
  · show BitVec.extractLsb' 20 12 (packI ..) = _
    rw [packI, extractLsb'_append_high (h := by decide), extractLsb'_append_high (h := by decide), extractLsb'_append_high (h := by decide), extractLsb'_append_high (h := by decide), BitVec.extractLsb'_eq_self]

/-- The immediate read back from a packed I word. -/
theorem immI_packI (op : Opcode) (rd : RegIdx) (f3 : Funct3) (rs1 : RegIdx) (imm : Word) :
    immI (packI op rd f3 rs1 imm) =
      sext (field imm 0 12) := by
  obtain ⟨-, -, -, -, h20_12⟩ := packI_fields op rd f3 rs1 imm
  rw [immI, h20_12]

/-- Each field of a packed S word is the part put there (30_encoding.md R105). -/
theorem packS_fields (op : Opcode) (f3 : Funct3) (rs1 rs2 : RegIdx) (imm : Word) :
    opcodeOf (packS op f3 rs1 rs2 imm) = op ∧
    field (packS op f3 rs1 rs2 imm) 7 5 = field imm 0 5 ∧
    funct3Of (packS op f3 rs1 rs2 imm) = f3 ∧
    rs1Of (packS op f3 rs1 rs2 imm) = rs1 ∧
    rs2Of (packS op f3 rs1 rs2 imm) = rs2 ∧
    field (packS op f3 rs1 rs2 imm) 25 7 = field imm 5 7 := by
  refine ⟨?_, ?_, ?_, ?_, ?_, ?_⟩
  · show BitVec.extractLsb' 0 7 (packS ..) = _
    rw [packS, extractLsb'_append_low (h := by decide), BitVec.extractLsb'_eq_self]
  · show BitVec.extractLsb' 7 5 (packS ..) = _
    rw [packS, extractLsb'_append_high (h := by decide), extractLsb'_append_low (h := by decide), BitVec.extractLsb'_eq_self]
  · show BitVec.extractLsb' 12 3 (packS ..) = _
    rw [packS, extractLsb'_append_high (h := by decide), extractLsb'_append_high (h := by decide), extractLsb'_append_low (h := by decide), BitVec.extractLsb'_eq_self]
  · show BitVec.extractLsb' 15 5 (packS ..) = _
    rw [packS, extractLsb'_append_high (h := by decide), extractLsb'_append_high (h := by decide), extractLsb'_append_high (h := by decide), extractLsb'_append_low (h := by decide), BitVec.extractLsb'_eq_self]
  · show BitVec.extractLsb' 20 5 (packS ..) = _
    rw [packS, extractLsb'_append_high (h := by decide), extractLsb'_append_high (h := by decide), extractLsb'_append_high (h := by decide), extractLsb'_append_high (h := by decide), extractLsb'_append_low (h := by decide), BitVec.extractLsb'_eq_self]
  · show BitVec.extractLsb' 25 7 (packS ..) = _
    rw [packS, extractLsb'_append_high (h := by decide), extractLsb'_append_high (h := by decide), extractLsb'_append_high (h := by decide), extractLsb'_append_high (h := by decide), extractLsb'_append_high (h := by decide), BitVec.extractLsb'_eq_self]

/-- The immediate read back from a packed S word. -/
theorem immS_packS (op : Opcode) (f3 : Funct3) (rs1 rs2 : RegIdx) (imm : Word) :
    immS (packS op f3 rs1 rs2 imm) =
      sext (field imm 5 7 ++ field imm 0 5) := by
  obtain ⟨-, h7_5, -, -, -, h25_7⟩ := packS_fields op f3 rs1 rs2 imm
  rw [immS, h25_7, h7_5]

/-- Each field of a packed B word is the part put there (30_encoding.md R105). -/
theorem packB_fields (op : Opcode) (f3 : Funct3) (rs1 rs2 : RegIdx) (imm : Word) :
    opcodeOf (packB op f3 rs1 rs2 imm) = op ∧
    field (packB op f3 rs1 rs2 imm) 7 1 = field imm 11 1 ∧
    field (packB op f3 rs1 rs2 imm) 8 4 = field imm 1 4 ∧
    funct3Of (packB op f3 rs1 rs2 imm) = f3 ∧
    rs1Of (packB op f3 rs1 rs2 imm) = rs1 ∧
    rs2Of (packB op f3 rs1 rs2 imm) = rs2 ∧
    field (packB op f3 rs1 rs2 imm) 25 6 = field imm 5 6 ∧
    field (packB op f3 rs1 rs2 imm) 31 1 = field imm 12 1 := by
  refine ⟨?_, ?_, ?_, ?_, ?_, ?_, ?_, ?_⟩
  · show BitVec.extractLsb' 0 7 (packB ..) = _
    rw [packB, extractLsb'_append_low (h := by decide), BitVec.extractLsb'_eq_self]
  · show BitVec.extractLsb' 7 1 (packB ..) = _
    rw [packB, extractLsb'_append_high (h := by decide), extractLsb'_append_low (h := by decide), BitVec.extractLsb'_eq_self]
  · show BitVec.extractLsb' 8 4 (packB ..) = _
    rw [packB, extractLsb'_append_high (h := by decide), extractLsb'_append_high (h := by decide), extractLsb'_append_low (h := by decide), BitVec.extractLsb'_eq_self]
  · show BitVec.extractLsb' 12 3 (packB ..) = _
    rw [packB, extractLsb'_append_high (h := by decide), extractLsb'_append_high (h := by decide), extractLsb'_append_high (h := by decide), extractLsb'_append_low (h := by decide), BitVec.extractLsb'_eq_self]
  · show BitVec.extractLsb' 15 5 (packB ..) = _
    rw [packB, extractLsb'_append_high (h := by decide), extractLsb'_append_high (h := by decide), extractLsb'_append_high (h := by decide), extractLsb'_append_high (h := by decide), extractLsb'_append_low (h := by decide), BitVec.extractLsb'_eq_self]
  · show BitVec.extractLsb' 20 5 (packB ..) = _
    rw [packB, extractLsb'_append_high (h := by decide), extractLsb'_append_high (h := by decide), extractLsb'_append_high (h := by decide), extractLsb'_append_high (h := by decide), extractLsb'_append_high (h := by decide), extractLsb'_append_low (h := by decide), BitVec.extractLsb'_eq_self]
  · show BitVec.extractLsb' 25 6 (packB ..) = _
    rw [packB, extractLsb'_append_high (h := by decide), extractLsb'_append_high (h := by decide), extractLsb'_append_high (h := by decide), extractLsb'_append_high (h := by decide), extractLsb'_append_high (h := by decide), extractLsb'_append_high (h := by decide), extractLsb'_append_low (h := by decide), BitVec.extractLsb'_eq_self]
  · show BitVec.extractLsb' 31 1 (packB ..) = _
    rw [packB, extractLsb'_append_high (h := by decide), extractLsb'_append_high (h := by decide), extractLsb'_append_high (h := by decide), extractLsb'_append_high (h := by decide), extractLsb'_append_high (h := by decide), extractLsb'_append_high (h := by decide), extractLsb'_append_high (h := by decide), BitVec.extractLsb'_eq_self]

/-- The immediate read back from a packed B word. -/
theorem immB_packB (op : Opcode) (f3 : Funct3) (rs1 rs2 : RegIdx) (imm : Word) :
    immB (packB op f3 rs1 rs2 imm) =
      sext (field imm 12 1 ++ field imm 11 1 ++ field imm 5 6 ++ field imm 1 4 ++ 0#1) := by
  obtain ⟨-, h7_1, h8_4, -, -, -, h25_6, h31_1⟩ := packB_fields op f3 rs1 rs2 imm
  rw [immB, h31_1, h7_1, h25_6, h8_4]

/-- Each field of a packed U word is the part put there (30_encoding.md R105). -/
theorem packU_fields (op : Opcode) (rd : RegIdx) (imm : Word) :
    opcodeOf (packU op rd imm) = op ∧
    rdOf (packU op rd imm) = rd ∧
    field (packU op rd imm) 12 20 = field imm 12 20 := by
  refine ⟨?_, ?_, ?_⟩
  · show BitVec.extractLsb' 0 7 (packU ..) = _
    rw [packU, extractLsb'_append_low (h := by decide), BitVec.extractLsb'_eq_self]
  · show BitVec.extractLsb' 7 5 (packU ..) = _
    rw [packU, extractLsb'_append_high (h := by decide), extractLsb'_append_low (h := by decide), BitVec.extractLsb'_eq_self]
  · show BitVec.extractLsb' 12 20 (packU ..) = _
    rw [packU, extractLsb'_append_high (h := by decide), extractLsb'_append_high (h := by decide), BitVec.extractLsb'_eq_self]

/-- The immediate read back from a packed U word. -/
theorem immU_packU (op : Opcode) (rd : RegIdx) (imm : Word) :
    immU (packU op rd imm) =
      field imm 12 20 ++ 0#12 := by
  obtain ⟨-, -, h12_20⟩ := packU_fields op rd imm
  rw [immU, h12_20]

/-- Each field of a packed J word is the part put there (30_encoding.md R105). -/
theorem packJ_fields (op : Opcode) (rd : RegIdx) (imm : Word) :
    opcodeOf (packJ op rd imm) = op ∧
    rdOf (packJ op rd imm) = rd ∧
    field (packJ op rd imm) 12 8 = field imm 12 8 ∧
    field (packJ op rd imm) 20 1 = field imm 11 1 ∧
    field (packJ op rd imm) 21 10 = field imm 1 10 ∧
    field (packJ op rd imm) 31 1 = field imm 20 1 := by
  refine ⟨?_, ?_, ?_, ?_, ?_, ?_⟩
  · show BitVec.extractLsb' 0 7 (packJ ..) = _
    rw [packJ, extractLsb'_append_low (h := by decide), BitVec.extractLsb'_eq_self]
  · show BitVec.extractLsb' 7 5 (packJ ..) = _
    rw [packJ, extractLsb'_append_high (h := by decide), extractLsb'_append_low (h := by decide), BitVec.extractLsb'_eq_self]
  · show BitVec.extractLsb' 12 8 (packJ ..) = _
    rw [packJ, extractLsb'_append_high (h := by decide), extractLsb'_append_high (h := by decide), extractLsb'_append_low (h := by decide), BitVec.extractLsb'_eq_self]
  · show BitVec.extractLsb' 20 1 (packJ ..) = _
    rw [packJ, extractLsb'_append_high (h := by decide), extractLsb'_append_high (h := by decide), extractLsb'_append_high (h := by decide), extractLsb'_append_low (h := by decide), BitVec.extractLsb'_eq_self]
  · show BitVec.extractLsb' 21 10 (packJ ..) = _
    rw [packJ, extractLsb'_append_high (h := by decide), extractLsb'_append_high (h := by decide), extractLsb'_append_high (h := by decide), extractLsb'_append_high (h := by decide), extractLsb'_append_low (h := by decide), BitVec.extractLsb'_eq_self]
  · show BitVec.extractLsb' 31 1 (packJ ..) = _
    rw [packJ, extractLsb'_append_high (h := by decide), extractLsb'_append_high (h := by decide), extractLsb'_append_high (h := by decide), extractLsb'_append_high (h := by decide), extractLsb'_append_high (h := by decide), BitVec.extractLsb'_eq_self]

/-- The immediate read back from a packed J word. -/
theorem immJ_packJ (op : Opcode) (rd : RegIdx) (imm : Word) :
    immJ (packJ op rd imm) =
      sext (field imm 20 1 ++ field imm 12 8 ++ field imm 11 1 ++ field imm 1 10 ++ 0#1) := by
  obtain ⟨-, -, h12_8, h20_1, h21_10, h31_1⟩ := packJ_fields op rd imm
  rw [immJ, h31_1, h12_8, h20_1, h21_10]

end Sys2Proof
end

