-- ==== Sys2Proof/Laws/Memory.lean ====
section
/-! SUPPORT. The laws of Memory: every operation keeps the canonical form, a read after a write to the same
place gives the value written, and a write leaves every other place alone. -/

namespace Sys2Proof.Machine

/-! ### One cell of the list -/

theorem lookupCell_of_lt {a : Nat} : ∀ {l : List Host.Cell}, (∀ p ∈ l, a < p.1) → lookupCell a l = unlistedByte
  | [], _ => rfl
  | (k, v) :: rest, h => by
    have hk : a < k := h (k, v) (by simp)
    rw [lookupCell, if_neg (by omega)]
    exact lookupCell_of_lt fun p hp => h p (by simp [hp])

theorem lookupCell_setCell_ne {a b : Nat} {v : Byte} (hab : b ≠ a) :
    ∀ l : List Host.Cell, lookupCell b (setCell a v l) = lookupCell b l
  | [] => by simp only [setCell]; split <;> simp [lookupCell, hab.symm]
  | (k, x) :: rest => by
    simp only [setCell]
    split
    · split <;> simp [lookupCell, hab.symm]
    · split
      · rename_i h; subst h
        split <;> simp [lookupCell, hab.symm]
      · simp only [lookupCell, lookupCell_setCell_ne hab rest]

theorem lookupCell_setCell_self {a : Nat} {v : Byte} :
    ∀ {l : List Host.Cell}, l.Pairwise (fun p q => p.1 < q.1) → lookupCell a (setCell a v l) = v
  | [], _ => by
    simp only [setCell]
    split
    · simp_all [lookupCell]
    · simp [lookupCell]
  | (k, x) :: rest, h => by
    have hrest := List.pairwise_cons.1 h
    simp only [setCell]
    split
    · rename_i hk
      split
      · rename_i hv; subst hv
        exact lookupCell_of_lt fun p hp => by
          rcases List.mem_cons.1 hp with rfl | hp
          · exact hk
          · exact Nat.lt_trans hk (hrest.1 p hp)
      · simp [lookupCell]
    · split
      · rename_i hk; subst hk
        split
        · rename_i hv; subst hv
          exact lookupCell_of_lt hrest.1
        · simp [lookupCell]
      · rename_i hk
        rw [lookupCell, if_neg (by omega)]
        exact lookupCell_setCell_self hrest.2

theorem mem_setCell {a : Nat} {v : Byte} {p : Host.Cell} :
    ∀ {l : List Host.Cell}, p ∈ setCell a v l → p ∈ l ∨ (p = (a, v) ∧ v ≠ unlistedByte)
  | [], h => by
    simp only [setCell] at h
    split at h
    · simp at h
    · rename_i hv; exact .inr ⟨by simpa using h, hv⟩
  | (k, x) :: rest, h => by
    simp only [setCell] at h
    split at h
    · split at h
      · exact .inl h
      · rename_i hv
        rcases List.mem_cons.1 h with rfl | h
        · exact .inr ⟨rfl, hv⟩
        · exact .inl h
    · split at h
      · split at h
        · exact .inl (by simp [h])
        · rename_i hv
          rcases List.mem_cons.1 h with rfl | h
          · exact .inr ⟨rfl, hv⟩
          · exact .inl (by simp [h])
      · rcases List.mem_cons.1 h with rfl | h
        · exact .inl (by simp)
        · exact (mem_setCell h).imp (fun h => by simp [h]) id

theorem setCell_pairwise {a : Nat} {v : Byte} :
    ∀ {l : List Host.Cell}, l.Pairwise (fun p q => p.1 < q.1) →
      (setCell a v l).Pairwise (fun p q => p.1 < q.1)
  | [], _ => by simp only [setCell]; split <;> simp
  | (k, x) :: rest, h => by
    have hrest := List.pairwise_cons.1 h
    simp only [setCell]
    split
    · rename_i hk
      split
      · exact h
      · refine List.pairwise_cons.2 ⟨fun p hp => ?_, h⟩
        rcases List.mem_cons.1 hp with rfl | hp
        · exact hk
        · exact Nat.lt_trans hk (hrest.1 p hp)
    · split
      · rename_i hk; subst hk
        split
        · exact hrest.2
        · exact List.pairwise_cons.2 ⟨hrest.1, hrest.2⟩
      · rename_i h1 h2
        refine List.pairwise_cons.2 ⟨fun p hp => ?_, setCell_pairwise hrest.2⟩
        rcases mem_setCell hp with hp | ⟨rfl, -⟩
        · exact hrest.1 p hp
        · show k < a
          omega

/-! ### One byte -/

@[simp] theorem writeByte_capacity (m : Memory) (a : Nat) (v : Byte) :
    (m.writeByte a v).capacity = m.capacity := by
  simp only [Memory.writeByte]; split <;> rfl

/-- A write of one byte keeps the canonical form. -/
theorem writeByte_wf {m : Memory} (h : m.wf) (a : Nat) (v : Byte) : (m.writeByte a v).wf := by
  simp only [Memory.writeByte]
  split
  · rename_i ha
    refine ⟨setCell_pairwise h.1, fun p hp => ?_⟩
    rcases mem_setCell hp with hp | ⟨rfl, hv⟩
    · exact h.2 p hp
    · exact ⟨ha, hv⟩
  · exact h

/-- A byte reads as it was last written, where it is backed. -/
theorem readByte_writeByte_self {m : Memory} (h : m.wf) {a : Nat} (ha : a < m.capacity) (v : Byte) :
    (m.writeByte a v).readByte a = v := by
  simp [Memory.writeByte, ha, Memory.readByte, lookupCell_setCell_self h.1]

/-- A write of one byte leaves every other byte alone. -/
theorem readByte_writeByte_ne (m : Memory) {a b : Nat} (hab : b ≠ a) (v : Byte) :
    (m.writeByte a v).readByte b = m.readByte b := by
  simp only [Memory.writeByte]
  split
  · exact lookupCell_setCell_ne hab _
  · rfl

/-! ### A run of bytes -/

@[simp] theorem writeBytes_capacity : ∀ (l : List Byte) (m : Memory) (a : Nat),
    (m.writeBytes a l).capacity = m.capacity
  | [], _, _ => rfl
  | b :: rest, m, a => by
    rw [Memory.writeBytes, writeBytes_capacity rest, writeByte_capacity]

/-- A write of any number of bytes keeps the canonical form. -/
theorem writeBytes_wf : ∀ (l : List Byte) {m : Memory} (_ : m.wf) (a : Nat), (m.writeBytes a l).wf
  | [], _, h, _ => h
  | b :: rest, _, h, a => writeBytes_wf rest (writeByte_wf h a b) (a + 1)

/-- Bytes outside the run are left alone. -/
theorem readByte_writeBytes_outside : ∀ (l : List Byte) (m : Memory) {a b : Nat},
    (b < a ∨ a + l.length ≤ b) → (m.writeBytes a l).readByte b = m.readByte b
  | [], _, _, _, _ => rfl
  | x :: rest, m, a, b, h => by
    rw [List.length_cons] at h
    rw [Memory.writeBytes, readByte_writeBytes_outside rest _ (by omega),
      readByte_writeByte_ne m (by omega)]

/-- Byte k of the run reads as the k-th byte written. -/
theorem readByte_writeBytes_inside : ∀ (l : List Byte) {m : Memory} (_ : m.wf) {a : Nat}
    (_ : a + l.length ≤ m.capacity) {k : Nat} (hk : k < l.length), (m.writeBytes a l).readByte (a + k) = l[k]
  | x :: rest, m, h, a, ha, 0, _ => by
    rw [List.length_cons] at ha
    rw [Memory.writeBytes, readByte_writeBytes_outside rest _ (by omega)]
    exact readByte_writeByte_self h (by omega) x
  | x :: rest, m, h, a, ha, k + 1, hk => by
    rw [List.length_cons] at ha hk
    have := readByte_writeBytes_inside rest (writeByte_wf h a x) (a := a + 1)
      (by rw [writeByte_capacity]; omega) (k := k) (by omega)
    rw [Memory.writeBytes, show a + (k + 1) = a + 1 + k by omega, this]
    rfl

/-! ### A word -/

theorem fits_iff (m : Memory) (addr : Word) : m.fits addr = true ↔ u32 addr + 4 ≤ m.capacity := by
  simp [Memory.fits]

theorem fits_eq_false_iff (m : Memory) (addr : Word) :
    m.fits addr = false ↔ m.capacity < u32 addr + 4 := by
  simp [Memory.fits]

@[simp] theorem writeWord_capacity (m : Memory) (addr v : Word) :
    (m.writeWord addr v).capacity = m.capacity := writeBytes_capacity _ _ _

/-- A write of a word keeps the canonical form. -/
theorem writeWord_wf {m : Memory} (h : m.wf) (addr v : Word) : (m.writeWord addr v).wf :=
  writeBytes_wf _ h _

/-- The bytes outside the four written are left alone. -/
theorem readByte_writeWord_outside (m : Memory) (addr v : Word) {b : Nat}
    (h : b < u32 addr ∨ u32 addr + 4 ≤ b) : (m.writeWord addr v).readByte b = m.readByte b :=
  readByte_writeBytes_outside _ m h

/-- The four bytes written are the word's, the least significant at the lowest address. -/
theorem readByte_writeWord_inside {m : Memory} (h : m.wf) {addr : Word} (hf : m.fits addr = true) (v : Word)
    {k : Nat} (hk : k < 4) : (m.writeWord addr v).readByte (u32 addr + k) = field v (8 * k) 8 := by
  have hc := (fits_iff m addr).1 hf
  have := readByte_writeBytes_inside (bytesOfWord v) h (a := u32 addr) (by simpa [bytesOfWord] using hc)
    (k := k) (by simpa [bytesOfWord] using hk)
  rw [Memory.writeWord, this]
  match k, hk with
  | 0, _ | 1, _ | 2, _ | 3, _ => rfl

/-- The bytes of a word compose to the word. -/
theorem wordOfBytes_fields (v : Word) :
    wordOfBytes (field v 0 8) (field v 8 8) (field v 16 8) (field v 24 8) = v := by
  apply BitVec.eq_of_getLsbD_eq
  intro i hi
  simp only [wordOfBytes, field, BitVec.getLsbD_append, BitVec.getLsbD_extractLsb']
  split
  · simp_all
  · split
    · rw [decide_eq_true (by omega)]; simp; congr 1; omega
    · split
      · rw [decide_eq_true (by omega)]; simp; congr 1; omega
      · rw [decide_eq_true (by omega)]; simp; congr 1; omega

/-- A word reads as it was last written. -/
theorem readWord_writeWord_self {m : Memory} (h : m.wf) {addr : Word} (hf : m.fits addr = true) (v : Word) :
    (m.writeWord addr v).readWord addr = v := by
  have e := fun {k} hk => readByte_writeWord_inside h hf v (k := k) hk
  simp only [Memory.readWord]
  rw [e (k := 1) (by omega), e (k := 2) (by omega), e (k := 3) (by omega)]
  have e0 : (m.writeWord addr v).readByte (u32 addr) = field v 0 8 := e (k := 0) (by omega)
  rw [e0]
  exact wordOfBytes_fields v

/-- A word composed of untouched bytes reads as before. -/
theorem readWord_congr {m n : Memory} {addr : Word}
    (h : ∀ k : Nat, k < 4 → n.readByte (u32 addr + k) = m.readByte (u32 addr + k)) :
    n.readWord addr = m.readWord addr := by
  simp only [Memory.readWord, h 1 (by omega), h 2 (by omega), h 3 (by omega)]
  rw [show n.readByte (u32 addr) = m.readByte (u32 addr) from h 0 (by omega)]

/-! ### The memory write of a cycle -/

/-- The memory write of any effect keeps the canonical form. -/
theorem applyMemWrite_wf {m : Memory} (h : m.wf) (w : Option (Word × Word)) : (applyMemWrite w m).wf := by
  cases w with
  | none => exact h
  | some p => exact writeWord_wf h _ _

@[simp] theorem applyMemWrite_capacity (m : Memory) (w : Option (Word × Word)) :
    (applyMemWrite w m).capacity = m.capacity := by
  cases w with
  | none => rfl
  | some p => exact writeWord_capacity _ _ _

/-- Memory at construction is canonical, whatever the parameters. -/
theorem construct_wf (c : Config) : (State.construct c).mem.wf :=
  ⟨List.Pairwise.nil, fun _ h => nomatch h⟩

/-- Memory at reset is canonical. -/
theorem reset_wf : State.reset.mem.wf := construct_wf _

end Sys2Proof.Machine
end

