-- ==== Sys2Proof/Laws/PerInstr.lean ====
section
/-! SUPPORT. Facts stated per instruction, one lemma per constructor. Family EncodesToItsRow: the word of an
instruction, well-formed or not, has the match of its row under the row's mask (30_encoding.md R104). -/

namespace Sys2Proof.Laws.EncodesToItsRow

/-- The encoded word meets its row of the opcode table. -/
def Statement (i : Instr) : Prop := encode i &&& i.mask = i.matchWord

/-- Under the mask 0x0000007F only the opcode is seen. -/
theorem masked_opcode {w : Word} {op : Opcode} (h : opcodeOf w = op) : w &&& 0x0000007F = op.setWidth 32 := by
  subst h
  apply BitVec.eq_of_getLsbD_eq
  intro k hk
  simp only [opcodeOf, BitVec.getLsbD_and, BitVec.getLsbD_setWidth, getLsbD_field]
  interval_cases k <;> simp

/-- Under the mask 0x0000707F only the opcode and funct3 are seen. -/
theorem masked_funct3 {w : Word} {op : Opcode} {f3 : Funct3} (h : opcodeOf w = op) (h3 : funct3Of w = f3) :
    w &&& 0x0000707F = (f3.setWidth 32 <<< 12) ||| op.setWidth 32 := by
  subst h; subst h3
  apply BitVec.eq_of_getLsbD_eq
  intro k hk
  simp only [opcodeOf, funct3Of, BitVec.getLsbD_and, BitVec.getLsbD_or, BitVec.getLsbD_shiftLeft,
    BitVec.getLsbD_setWidth, getLsbD_field]
  interval_cases k <;> simp

/-- Under the mask 0xFE00707F only the opcode, funct3 and funct7 are seen. -/
theorem masked_funct7 {w : Word} {op : Opcode} {f3 : Funct3} {f7 : Funct7} (h : opcodeOf w = op)
    (h3 : funct3Of w = f3) (h7 : funct7Of w = f7) :
    w &&& 0xFE00707F = (f7.setWidth 32 <<< 25) ||| (f3.setWidth 32 <<< 12) ||| op.setWidth 32 := by
  subst h; subst h3; subst h7
  apply BitVec.eq_of_getLsbD_eq
  intro k hk
  simp only [opcodeOf, funct3Of, funct7Of, BitVec.getLsbD_and, BitVec.getLsbD_or, BitVec.getLsbD_shiftLeft,
    BitVec.getLsbD_setWidth, getLsbD_field]
  interval_cases k <;> simp

theorem packR_masked (op : Opcode) (rd : RegIdx) (f3 : Funct3) (rs1 rs2 : RegIdx) (f7 : Funct7) :
    packR op rd f3 rs1 rs2 f7 &&& 0xFE00707F =
      (f7.setWidth 32 <<< 25) ||| (f3.setWidth 32 <<< 12) ||| op.setWidth 32 :=
  have h := packR_fields op rd f3 rs1 rs2 f7
  masked_funct7 h.1 h.2.2.1 h.2.2.2.2.2

theorem packI_masked (op : Opcode) (rd : RegIdx) (f3 : Funct3) (rs1 : RegIdx) (imm : Word) :
    packI op rd f3 rs1 imm &&& 0x0000707F = (f3.setWidth 32 <<< 12) ||| op.setWidth 32 :=
  have h := packI_fields op rd f3 rs1 imm
  masked_funct3 h.1 h.2.2.1

theorem packS_masked (op : Opcode) (f3 : Funct3) (rs1 rs2 : RegIdx) (imm : Word) :
    packS op f3 rs1 rs2 imm &&& 0x0000707F = (f3.setWidth 32 <<< 12) ||| op.setWidth 32 :=
  have h := packS_fields op f3 rs1 rs2 imm
  masked_funct3 h.1 h.2.2.1

theorem packB_masked (op : Opcode) (f3 : Funct3) (rs1 rs2 : RegIdx) (imm : Word) :
    packB op f3 rs1 rs2 imm &&& 0x0000707F = (f3.setWidth 32 <<< 12) ||| op.setWidth 32 :=
  have h := packB_fields op f3 rs1 rs2 imm
  masked_funct3 h.1 h.2.2.2.1

theorem packU_masked (op : Opcode) (rd : RegIdx) (imm : Word) :
    packU op rd imm &&& 0x0000007F = op.setWidth 32 := masked_opcode (packU_fields op rd imm).1

theorem packJ_masked (op : Opcode) (rd : RegIdx) (imm : Word) :
    packJ op rd imm &&& 0x0000007F = op.setWidth 32 := masked_opcode (packJ_fields op rd imm).1

theorem add (rd rs1 rs2 : RegIdx) : Statement (.add rd rs1 rs2) := packR_masked 0x33 rd 0x0 rs1 rs2 0x00
theorem sub (rd rs1 rs2 : RegIdx) : Statement (.sub rd rs1 rs2) := packR_masked 0x33 rd 0x0 rs1 rs2 0x20
theorem and (rd rs1 rs2 : RegIdx) : Statement (.and rd rs1 rs2) := packR_masked 0x33 rd 0x7 rs1 rs2 0x00
theorem or (rd rs1 rs2 : RegIdx) : Statement (.or rd rs1 rs2) := packR_masked 0x33 rd 0x6 rs1 rs2 0x00
theorem xor (rd rs1 rs2 : RegIdx) : Statement (.xor rd rs1 rs2) := packR_masked 0x33 rd 0x4 rs1 rs2 0x00
theorem addi (rd rs1 : RegIdx) (imm : Word) : Statement (.addi rd rs1 imm) := packI_masked 0x13 rd 0x0 rs1 imm
theorem slti (rd rs1 : RegIdx) (imm : Word) : Statement (.slti rd rs1 imm) := packI_masked 0x13 rd 0x2 rs1 imm
theorem sltiu (rd rs1 : RegIdx) (imm : Word) : Statement (.sltiu rd rs1 imm) := packI_masked 0x13 rd 0x3 rs1 imm
theorem lw (rd rs1 : RegIdx) (imm : Word) : Statement (.lw rd rs1 imm) := packI_masked 0x03 rd 0x2 rs1 imm
theorem sw (rs1 rs2 : RegIdx) (imm : Word) : Statement (.sw rs1 rs2 imm) := packS_masked 0x23 0x2 rs1 rs2 imm
theorem beq (rs1 rs2 : RegIdx) (imm : Word) : Statement (.beq rs1 rs2 imm) := packB_masked 0x63 0x0 rs1 rs2 imm
theorem bne (rs1 rs2 : RegIdx) (imm : Word) : Statement (.bne rs1 rs2 imm) := packB_masked 0x63 0x1 rs1 rs2 imm
theorem blt (rs1 rs2 : RegIdx) (imm : Word) : Statement (.blt rs1 rs2 imm) := packB_masked 0x63 0x4 rs1 rs2 imm
theorem bge (rs1 rs2 : RegIdx) (imm : Word) : Statement (.bge rs1 rs2 imm) := packB_masked 0x63 0x5 rs1 rs2 imm
theorem bltu (rs1 rs2 : RegIdx) (imm : Word) : Statement (.bltu rs1 rs2 imm) := packB_masked 0x63 0x6 rs1 rs2 imm
theorem bgeu (rs1 rs2 : RegIdx) (imm : Word) : Statement (.bgeu rs1 rs2 imm) := packB_masked 0x63 0x7 rs1 rs2 imm
theorem lui (rd : RegIdx) (imm : Word) : Statement (.lui rd imm) := packU_masked 0x37 rd imm
theorem auipc (rd : RegIdx) (imm : Word) : Statement (.auipc rd imm) := packU_masked 0x17 rd imm
theorem jal (rd : RegIdx) (imm : Word) : Statement (.jal rd imm) := packJ_masked 0x6F rd imm

end Sys2Proof.Laws.EncodesToItsRow
end

