-- ==== Sys2Proof/Laws/State.lean ====
section
/-! SUPPORT. What each update of the state does to each part of it, so that no later proof unfolds one. -/

namespace Sys2Proof.Machine

/-! ### The register file -/

theorem readReg_eq_of_regs {s t : State} (h : t.regs = s.regs) (r : RegIdx) :
    t.readReg r = s.readReg r := by
  simp [State.readReg, h]

/-- Reading after the end of a cycle with a register write: x0 reads 0, `rd` the value, the rest as
before. -/
theorem readReg_retire_some (e : Effect) (s : State) (rd : RegIdx) (v : Word) (h : e.regWrite = some (rd, v))
    (r : RegIdx) :
    (retire e s).readReg r = if r = 0 then 0 else if r = rd then v else s.readReg r := by
  simp only [State.readReg, retire, zeroEnforce, writeBack, h, Vector.getElem_set]
  simp [BitVec.toNat_inj, eq_comm, ← BitVec.toNat_inj (x := r) (y := 0#5)]

/-- Reading after the end of a cycle with no register write: x0 reads 0, the rest as before. -/
theorem readReg_retire_none (e : Effect) (s : State) (h : e.regWrite = none) (r : RegIdx) :
    (retire e s).readReg r = if r = 0 then 0 else s.readReg r := by
  simp only [State.readReg, retire, zeroEnforce, writeBack, h, Vector.getElem_set]
  simp [eq_comm, ← BitVec.toNat_inj (x := r) (y := 0#5)]

/-- Zero enforcement: after the end of any cycle x0 reads 0 (10_state.md R34). -/
@[simp] theorem readReg_retire_zero (e : Effect) (s : State) : (retire e s).readReg 0#5 = 0#32 := by
  simp [State.readReg, retire, zeroEnforce]

@[simp] theorem readReg_raiseFatal (k : FatalKind) (a : Word) (s : State) (r : RegIdx) :
    (raiseFatal k a s).readReg r = s.readReg r := rfl
@[simp] theorem readReg_halt (s : State) (r : RegIdx) : (halt s).readReg r = s.readReg r := rfl
@[simp] theorem readReg_startRun (s : State) (r : RegIdx) : (startRun s).readReg r = s.readReg r := rfl

/-! ### The other fields -/

@[simp] theorem retire_pc (e : Effect) (s : State) : (retire e s).pc = e.nextPc := rfl
@[simp] theorem retire_mem (e : Effect) (s : State) : (retire e s).mem = applyMemWrite e.memWrite s.mem := rfl
@[simp] theorem retire_status (e : Effect) (s : State) : (retire e s).status = s.status := rfl

@[simp] theorem raiseFatal_regs (k : FatalKind) (a : Word) (s : State) : (raiseFatal k a s).regs = s.regs := rfl
@[simp] theorem raiseFatal_pc (k : FatalKind) (a : Word) (s : State) : (raiseFatal k a s).pc = s.pc := rfl
@[simp] theorem raiseFatal_mem (k : FatalKind) (a : Word) (s : State) : (raiseFatal k a s).mem = s.mem := rfl
@[simp] theorem raiseFatal_status (k : FatalKind) (a : Word) (s : State) :
    (raiseFatal k a s).status = .faulted k a := rfl

@[simp] theorem halt_regs (s : State) : (halt s).regs = s.regs := rfl
@[simp] theorem halt_pc (s : State) : (halt s).pc = s.pc := rfl
@[simp] theorem halt_mem (s : State) : (halt s).mem = s.mem := rfl
@[simp] theorem halt_status (s : State) : (halt s).status = .halted := rfl

@[simp] theorem startRun_regs (s : State) : (startRun s).regs = s.regs := rfl
@[simp] theorem startRun_pc (s : State) : (startRun s).pc = 0 := rfl
@[simp] theorem startRun_mem (s : State) : (startRun s).mem = s.mem := rfl
@[simp] theorem startRun_status (s : State) : (startRun s).status = .running := rfl

@[simp] theorem construct_pc (c : Config) : (State.construct c).pc = 0 := rfl
@[simp] theorem construct_status (c : Config) : (State.construct c).status = .idle := rfl
@[simp] theorem construct_capacity (c : Config) : (State.construct c).mem.capacity = c.capacity := rfl
@[simp] theorem construct_cells (c : Config) : (State.construct c).mem.cells = [] := rfl
@[simp] theorem construct_readReg_zero (c : Config) : (State.construct c).readReg 0#5 = 0#32 := by
  simp [State.construct, State.readReg]
theorem construct_readReg (c : Config) (r : RegIdx) (h : r ≠ 0) :
    (State.construct c).readReg r = c.regInit[r.toNat]'(r.isLt) := by
  have h0 : ¬ 0 = r.toNat := fun e => h (BitVec.eq_of_toNat_eq (by simpa using e.symm))
  simp [State.construct, State.readReg, h0]

/-! ### The errors and the exit signal -/

@[simp] theorem code_unsupportedOpcode : RecoverableKind.unsupportedOpcode.code = 1 := rfl
@[simp] theorem code_unsupportedInstruction : RecoverableKind.unsupportedInstruction.code = 2 := rfl
@[simp] theorem code_memoryOutOfBounds : FatalKind.memoryOutOfBounds.code = 3 := rfl
@[simp] theorem code_alignmentViolation : FatalKind.alignmentViolation.code = 4 := rfl

@[simp] theorem exitSignal_idle : exitSignal .idle = none := rfl
@[simp] theorem exitSignal_running : exitSignal .running = none := rfl
@[simp] theorem exitSignal_halted : exitSignal .halted = some 0 := rfl
@[simp] theorem exitSignal_faulted (k : FatalKind) (a : Word) : exitSignal (.faulted k a) = some k.code := rfl

/-! ### The shapes of a cycle -/

@[simp] theorem writeRegister_pc (rd : RegIdx) (v : Word) (s : State) : (writeRegister rd v s).pc = s.pc + 4 := rfl
@[simp] theorem writeRegister_mem (rd : RegIdx) (v : Word) (s : State) : (writeRegister rd v s).mem = s.mem := rfl
@[simp] theorem writeRegister_status (rd : RegIdx) (v : Word) (s : State) :
    (writeRegister rd v s).status = s.status := rfl
@[simp] theorem readReg_writeRegister (rd : RegIdx) (v : Word) (s : State) (r : RegIdx) :
    (writeRegister rd v s).readReg r = if r = 0 then 0 else if r = rd then v else s.readReg r :=
  readReg_retire_some _ _ _ _ rfl r

@[simp] theorem branch_pc (b : Bool) (imm : Word) (s : State) :
    (branch b imm s).pc = if b then s.pc + imm else s.pc + 4 := rfl
@[simp] theorem branch_mem (b : Bool) (imm : Word) (s : State) : (branch b imm s).mem = s.mem := rfl
@[simp] theorem branch_status (b : Bool) (imm : Word) (s : State) : (branch b imm s).status = s.status := rfl
@[simp] theorem readReg_branch (b : Bool) (imm : Word) (s : State) (r : RegIdx) :
    (branch b imm s).readReg r = if r = 0 then 0 else s.readReg r :=
  readReg_retire_none _ _ rfl r

/-- A cycle that writes `rd`: what the claims call `RegisterWritten`. -/
theorem registerWritten_of_retire (e : Effect) (s : State) (rd : RegIdx) (v : Word)
    (h : e.regWrite = some (rd, v)) : RegisterWritten rd v s (retire e s) := by
  refine ⟨readReg_retire_zero e s, fun hr => ?_, fun r h0 hr => ?_⟩
  · rw [readReg_retire_some e s rd v h, if_neg hr, if_pos rfl]
  · rw [readReg_retire_some e s rd v h, if_neg h0, if_neg hr]

/-- A cycle that writes no register: what the claims call `RegistersKept`. -/
theorem registersKept_of_retire (e : Effect) (s : State) (h : e.regWrite = none) :
    RegistersKept s (retire e s) := by
  refine ⟨readReg_retire_zero e s, fun r h0 => ?_⟩
  rw [readReg_retire_none e s h, if_neg h0]

/-- A cycle that writes no Memory keeps every byte. -/
theorem memoryKept_of_mem_eq {s t : State} (h : t.mem = s.mem) : MemoryKept s t := by
  simp [MemoryKept, h]

end Sys2Proof.Machine
end

