-- ==== Sys2Proof/Laws/Step.lean ====
section
/-! SUPPORT. What a fetch, an execution, a cycle and a step can do, each said once; later proofs cite these
and unfold none of them. -/

namespace Sys2Proof.Machine

/-! ### The fetch -/

/-- The alignment test of the fetch looks at the pc's two low bits (48_fetch_execute.md R254). -/
theorem lowTwoBits_eq_zero_iff (v : Word) : field v 0 2 = 0 ↔ u32 v % 4 = 0 := by
  rw [← BitVec.toNat_inj]
  simp [field, BitVec.extractLsb'_toNat]

/-- A word is fetched exactly from a backed, aligned pc. -/
theorem fetch_eq_word_iff (s : State) (w : Word) :
    fetch s = .word w ↔ u32 s.pc + 4 ≤ s.mem.capacity ∧ u32 s.pc % 4 = 0 ∧ s.mem.readWord s.pc = w := by
  rw [← fits_iff, ← lowTwoBits_eq_zero_iff]
  simp only [fetch]
  split
  · simp_all
  · split <;> simp_all

/-- What a cycle that fetches `w` needs, as the fetch says it. -/
theorem fetches_iff (s : State) (w : Word) : Fetches s w ↔ s.status = .running ∧ fetch s = .word w := by
  rw [fetch_eq_word_iff, Fetches]

/-- The fetch fails in one of two ways, the bounds check first, and records the pc. -/
theorem fetch_eq_fatal_iff (s : State) (k : FatalKind) (a : Word) :
    fetch s = .fatal k a ↔ a = s.pc ∧
      (k = .memoryOutOfBounds ∧ s.mem.capacity < u32 s.pc + 4 ∨
        k = .alignmentViolation ∧ u32 s.pc + 4 ≤ s.mem.capacity ∧ u32 s.pc % 4 ≠ 0) := by
  rw [← fits_eq_false_iff, ← fits_iff, ne_eq, ← lowTwoBits_eq_zero_iff]
  simp only [fetch]
  split
  · simp_all only [Fetched.fatal.injEq, Bool.false_eq_true, false_and, and_false, or_false, and_true]
    exact ⟨fun h => ⟨h.2.symm, h.1.symm⟩, fun h => ⟨h.2.symm, h.1.symm⟩⟩
  · rename_i hf
    rw [Bool.not_eq_false] at hf
    split
    · rename_i hz
      simp only [Fetched.fatal.injEq, hf, Bool.true_eq_false, and_false, false_or, hz,
        not_false_eq_true, and_true]
      exact ⟨fun h => ⟨h.2.symm, h.1.symm⟩, fun h => ⟨h.2.symm, h.1.symm⟩⟩
    · rename_i hz
      rw [ne_eq, Decidable.not_not] at hz
      simp [hf, hz]

/-! ### The execution of an instruction -/

/-- Everything an execution can do: it ends the cycle with an effect that writes the register of `destOf`
and no other and goes on at pc + 4 unless the instruction is a branch or JAL; or it is an LW or SW that
raises MemoryOutOfBounds at its effective address. -/
theorem exec_cases (i : Instr) (s : State) :
    (∃ e : Effect, exec i s = .next (retire e s) ∧ e.regWrite.map Prod.fst = destOf i ∧
      (e.memWrite = none ∨ ∃ rs1 rs2 imm, i = .sw rs1 rs2 imm ∧
        s.mem.fits (effectiveAddress s rs1 imm) = true ∧
        e.memWrite = some (effectiveAddress s rs1 imm, s.readReg rs2)) ∧
      (e.nextPc = s.pc + 4 ∨ ∃ rd rs1 rs2 imm, (i = .beq rs1 rs2 imm ∨ i = .bne rs1 rs2 imm ∨
        i = .blt rs1 rs2 imm ∨ i = .bge rs1 rs2 imm ∨ i = .bltu rs1 rs2 imm ∨ i = .bgeu rs1 rs2 imm ∨
        i = .jal rd imm) ∧ e.nextPc = s.pc + imm) ∧
      ((∃ rd rs1 imm, i = .lw rd rs1 imm) ∨ (∃ rs1 rs2 imm, i = .sw rs1 rs2 imm) →
        ∃ rs1 imm, ((∃ rd, i = .lw rd rs1 imm) ∨ ∃ rs2, i = .sw rs1 rs2 imm) ∧
          s.mem.fits (effectiveAddress s rs1 imm) = true)) ∨
    (∃ rs1 imm, ((∃ rd, i = .lw rd rs1 imm) ∨ ∃ rs2, i = .sw rs1 rs2 imm) ∧
      s.mem.fits (effectiveAddress s rs1 imm) = false ∧
      exec i s = .next (raiseFatal .memoryOutOfBounds (effectiveAddress s rs1 imm) s)) := by
  cases i with
  | lw rd rs1 imm =>
    by_cases h : s.mem.fits (effectiveAddress s rs1 imm) = true
    · exact .inl ⟨_, by simp [exec, execLw, h, writeRegister]; rfl, rfl, .inl rfl, .inl rfl, fun _ =>
        ⟨rs1, imm, .inl ⟨rd, rfl⟩, h⟩⟩
    · exact .inr ⟨rs1, imm, .inl ⟨rd, rfl⟩, by simpa using h, by simp [exec, execLw, h]⟩
  | sw rs1 rs2 imm =>
    by_cases h : s.mem.fits (effectiveAddress s rs1 imm) = true
    · exact .inl ⟨_, by simp [exec, execSw, h]; rfl, rfl, .inr ⟨rs1, rs2, imm, rfl, h, rfl⟩, .inl rfl, fun _ =>
        ⟨rs1, imm, .inr ⟨rs2, rfl⟩, h⟩⟩
    · exact .inr ⟨rs1, imm, .inr ⟨rs2, rfl⟩, by simpa using h, by simp [exec, execSw, h]⟩
  | beq rs1 rs2 imm | bne rs1 rs2 imm | blt rs1 rs2 imm | bge rs1 rs2 imm | bltu rs1 rs2 imm
  | bgeu rs1 rs2 imm =>
    refine .inl ⟨_, rfl, rfl, .inl rfl, ?_, by simp⟩
    dsimp only
    split
    · exact .inr ⟨0, rs1, rs2, imm, by simp, rfl⟩
    · exact .inl rfl
  | jal rd imm =>
    exact .inl ⟨_, rfl, rfl, .inl rfl, .inr ⟨rd, 0, 0, imm, by simp, rfl⟩, by simp⟩
  | _ => exact .inl ⟨_, rfl, rfl, .inl rfl, .inl rfl, by simp⟩

/-! ### The step -/

/-- A step with no run in progress keeps the state. -/
theorem step_of_not_running {s : State} (h : s.status ≠ .running) : step s = .next s := by
  unfold step
  split
  · exact absurd ‹_› h
  all_goals rfl

/-- A step of a run is a cycle. -/
theorem step_of_running {s : State} (h : s.status = .running) : step s = cycle s := by
  simp [step, h]

/-- A step that fetches a word runs it. -/
theorem step_of_fetches {s : State} {w : Word} (h : Fetches s w) : step s = runWord w s := by
  obtain ⟨hs, hf⟩ := (fetches_iff s w).1 h
  simp [step_of_running hs, cycle, hf]

/-- A step whose fetch fails enters Faulted. -/
theorem step_of_fetch_fatal {s : State} {k : FatalKind} {a : Word} (hs : s.status = .running)
    (h : fetch s = .fatal k a) : step s = .next (raiseFatal k a s) := by
  simp [step_of_running hs, cycle, h]

/-- The halt word is no instruction: its opcode is outside the eight (30_encoding.md R108). -/
theorem decode_zero : decode 0 = .unsupportedOpcode 0 := by decide

/-- Everything a step of a run can do. -/
theorem step_running_cases {s : State} (hs : s.status = .running) :
    (∃ k, fetch s = .fatal k s.pc ∧ step s = .next (raiseFatal k s.pc s)) ∨
    (Fetches s 0 ∧ step s = .next (halt s)) ∨
    (∃ w i, Fetches s w ∧ w ≠ 0 ∧ decode w = .instr i ∧ step s = exec i s) ∨
    (∃ w, Fetches s w ∧ w ≠ 0 ∧ (∀ i, decode w ≠ .instr i) ∧
      step s = .next (retire { nextPc := s.pc + 4, regWrite := none, memWrite := none } s)) := by
  cases h : fetch s with
  | fatal k a =>
    obtain ⟨rfl, -⟩ := (fetch_eq_fatal_iff s k a).1 h
    exact .inl ⟨k, rfl, step_of_fetch_fatal hs h⟩
  | word w =>
    have hf := (fetches_iff s w).2 ⟨hs, h⟩
    have hstep := step_of_fetches hf
    by_cases hw : w = 0
    · subst hw
      exact .inr (.inl ⟨hf, by simp [hstep, runWord]⟩)
    · cases hd : decode w with
      | instr i => exact .inr (.inr (.inl ⟨w, i, hf, hw, hd, by rw [hstep, runWord, if_neg hw, hd]⟩))
      | unsupportedOpcode op =>
        exact .inr (.inr (.inr ⟨w, hf, hw, by simp [hd], by rw [hstep, runWord, if_neg hw, hd]; rfl⟩))
      | unsupportedInstruction op =>
        exact .inr (.inr (.inr ⟨w, hf, hw, by simp [hd], by rw [hstep, runWord, if_neg hw, hd]; rfl⟩))

/-! ### The report -/

/-- Everything a report says of its cycle: the word at the pc was fetched, is not the halt word and decodes
to no instruction; it carries the pc and that word. -/
theorem report_cases {s : State} {r : Report} (h : s.report = some r) :
    Fetches s r.word ∧ r.word ≠ 0 ∧ r.pc = s.pc ∧
      ((r.error = .unsupportedOpcode ∧ ∃ op, decode r.word = .unsupportedOpcode op) ∨
        (r.error = .unsupportedInstruction ∧ ∃ op, decode r.word = .unsupportedInstruction op)) := by
  unfold State.report at h
  split at h
  · cases h
  · rename_i w hw
    have hf : Fetches s w ∧ w ≠ 0 := by
      unfold State.decodedWord at hw
      split at hw
      · rename_i hs hfetch
        split at hw
        · cases hw
        · rename_i hne
          cases hw
          exact ⟨(fetches_iff s w).2 ⟨hs, hfetch⟩, hne⟩
      · cases hw
    split at h
    · cases h
    · cases h
      exact ⟨hf.1, hf.2, rfl, .inl ⟨rfl, _, ‹_›⟩⟩
    · cases h
      exact ⟨hf.1, hf.2, rfl, .inr ⟨rfl, _, ‹_›⟩⟩

end Sys2Proof.Machine
end

