-- ==== Sys2Proof/Tests/Slice0.lean ====
section
/-! SUPPORT. The package's own tests. Expected results are the spec's: the tables V1 to V8, S0 to S6 and the
Example lines, cited by their ids (spec/95_test_vectors.md and 40 to 47). Witnesses of the
obligations' hypotheses are in Tests/Witnesses.lean. -/

namespace Sys2Proof.Tests

open Sys2Proof.Machine

/-! ### Well-formedness: one ill-formed term for each check -/

theorem test_wf_addi_imm_2048_refused : (Instr.addi 1 0 2048).wf = false := by decide
theorem test_wf_slti_imm_minus_2049_refused : (Instr.slti 1 0 (-2049)).wf = false := by decide
theorem test_wf_sw_imm_2048_refused : (Instr.sw 2 1 2048).wf = false := by decide
theorem test_wf_beq_odd_imm_refused : (Instr.beq 1 2 3).wf = false := by decide
theorem test_wf_bgeu_imm_4096_refused : (Instr.bgeu 1 2 4096).wf = false := by decide
theorem test_wf_jal_odd_imm_refused : (Instr.jal 1 7).wf = false := by decide
theorem test_wf_jal_imm_1048576_refused : (Instr.jal 1 1048576).wf = false := by decide
theorem test_wf_lui_low_bits_refused : (Instr.lui 1 0x12345001).wf = false := by decide
theorem test_wf_record_opcodes_refused :
    (Record.r 0x13 1 0 2 3 0).wf = false ∧ (Record.i 0x33 1 0 2 0).wf = false ∧
    (Record.s 0x63 2 1 2 0).wf = false ∧ (Record.b 0x23 0 1 2 0).wf = false ∧
    (Record.u 0x6F 1 0).wf = false ∧ (Record.j 0x37 1 0).wf = false ∧
    (Record.unsupported 0x67).wf = false := by decide
theorem test_wf_extremes_accepted :
    (Instr.addi 1 0 (-2048)).wf = true ∧ (Instr.beq 0 0 4094).wf = true ∧
    (Instr.jal 0 (-1048576)).wf = true ∧ (Instr.lui 1 0xFFFFF000).wf = true := by decide

/-! ### Decoding: each constructor, by a word written out field by field from its layout -/

theorem test_decode_add : decode 0b0000000_00010_00001_000_00011_0110011 = .instr (.add 3 1 2) := by decide
theorem test_decode_sub : decode 0b0100000_00001_00010_000_00011_0110011 = .instr (.sub 3 2 1) := by decide
theorem test_decode_and : decode 0b0000000_00111_00110_111_00101_0110011 = .instr (.and 5 6 7) := by decide
theorem test_decode_or : decode 0b0000000_00111_00110_110_00101_0110011 = .instr (.or 5 6 7) := by decide
theorem test_decode_xor : decode 0b0000000_00111_00110_100_00101_0110011 = .instr (.xor 5 6 7) := by decide
theorem test_decode_addi : decode 0b111111111111_00000_000_00000_0010011 = .instr (.addi 0 0 (-1)) := by decide
theorem test_decode_slti : decode 0b000000000101_00101_010_00100_0010011 = .instr (.slti 4 5 5) := by decide
theorem test_decode_sltiu : decode 0b000000000101_00101_011_00100_0010011 = .instr (.sltiu 4 5 5) := by decide
theorem test_decode_lw : decode 0b111111111100_00010_010_00011_0000011 = .instr (.lw 3 2 (-4)) := by decide
/-- V7.5. -/
theorem test_decode_sw : decode 0b1111111_00001_00010_010_11111_0100011 = .instr (.sw 2 1 (-1)) := by decide
theorem test_decode_beq : decode 0b0_000000_00010_00001_000_1000_0_1100011 = .instr (.beq 1 2 16) := by decide
theorem test_decode_bne : decode 0b1_111111_00000_00001_001_1100_1_1100011 = .instr (.bne 1 0 (-8)) := by decide
theorem test_decode_blt : decode 0b0_000000_00010_00001_100_1000_0_1100011 = .instr (.blt 1 2 16) := by decide
theorem test_decode_bge : decode 0b0_000000_00010_00001_101_1000_0_1100011 = .instr (.bge 1 2 16) := by decide
theorem test_decode_bltu : decode 0b0_000000_00010_00001_110_1000_0_1100011 = .instr (.bltu 1 2 16) := by decide
theorem test_decode_bgeu : decode 0b0_000000_00010_00001_111_1000_0_1100011 = .instr (.bgeu 1 2 16) := by decide
theorem test_decode_lui : decode 0b00010010001101000101_00001_0110111 = .instr (.lui 1 0x12345000) := by decide
theorem test_decode_auipc : decode 0b00000000000000000001_00010_0010111 = .instr (.auipc 2 0x1000) := by decide
theorem test_decode_jal : decode 0b1_1111111010_1_11111111_00000_1101111 = .instr (.jal 0 (-12)) := by decide
/-- V7.1 to V7.4: the extremes of the B and J immediates. -/
theorem test_decode_immediate_extremes :
    decode 0x80000063 = .instr (.beq 0 0 (-4096)) ∧ decode 0x7E000FE3 = .instr (.beq 0 0 4094) ∧
    decode 0x8000006F = .instr (.jal 0 (-1048576)) ∧ decode 0x7FFFF06F = .instr (.jal 0 1048574) := by decide
/-- V1.11, V1.12, V2.13, V3.11, V4.6, V5.8, V5.9, V7.8 to V7.10. -/
theorem test_decode_unsupported :
    decode 0x027372B3 = .unsupportedInstruction 0x33 ∧ decode 0x40004033 = .unsupportedInstruction 0x33 ∧
    decode 0x00005013 = .unsupportedInstruction 0x13 ∧ decode 0x00005003 = .unsupportedInstruction 0x03 ∧
    decode 0x00000023 = .unsupportedInstruction 0x23 ∧ decode 0x0020A863 = .unsupportedInstruction 0x63 ∧
    decode 0x0020B863 = .unsupportedInstruction 0x63 ∧ decode 0x0000007F = .unsupportedOpcode 0x7F ∧
    decode 0x00000001 = .unsupportedOpcode 0x01 ∧ decode 0x00008067 = .unsupportedOpcode 0x67 := by decide
/-- The words of the Example lines, encoded. -/
theorem test_encode_examples :
    encode (.add 3 1 2) = 0x002081B3 ∧ encode (.addi 1 0 10) = 0x00A00093 ∧ encode (.sw 2 1 (-1)) = 0xFE112FA3 ∧
    encode (.bne 1 0 (-8)) = 0xFE009CE3 ∧ encode (.lui 1 0x12345000) = 0x123450B7 ∧
    encode (.jal 0 (-12)) = 0xFF5FF06F := by decide
theorem test_decodeTableWord : decodeTableWord 32 0x40000033 = some (.sub 0 0 0) ∧
    decodeTableWord 32 0x67 = none := by decide

/-! ### One step -/

/-- A run in progress at `pc`, with the given registers and the given words in Memory, everything else as
at reset. -/
def running (pc : Word) (regs : List (RegIdx × Word)) (words : List (Word × Word)) : State :=
  { State.reset with
    status := .running
    pc := pc
    regs := regs.foldl (fun v p => v.set p.1.toNat p.2 p.1.isLt) State.reset.regs
    mem := words.foldl (fun m p => m.writeWord p.1 p.2) State.reset.mem }

/-- The state after one step, where the step answers one. -/
def after (s : State) : Option State :=
  match step s with
  | .next t => some t
  | .fault _ => none
  | .refused _ => none

/-- A register, the pc, the status and a byte after one step. -/
def regAfter (r : RegIdx) (s : State) : Option Word := (after s).map (·.readReg r)
def pcAfter (s : State) : Option Word := (after s).map (·.pc)
def statusAfter (s : State) : Option Status := (after s).map (·.status)
def bytesAfter (a n : Nat) (s : State) : Option (List Byte) :=
  (after s).map fun t => (List.range n).map fun k => t.mem.readByte (a + k)

/-- One instruction word at pc 0. -/
def one (w : Word) (regs : List (RegIdx × Word)) : State := running 0 regs [(0, w)]

/-- V1.1 and the pc. -/
theorem test_add_wraps : regAfter 3 (one 0x002081B3 [(1, 0x7FFFFFFF), (2, 1)]) = some 0x80000000 ∧
    pcAfter (one 0x002081B3 [(1, 0x7FFFFFFF), (2, 1)]) = some 4 := by decide
/-- V1.5, V1.6: rd = x0, and rd a source. -/
theorem test_add_to_x0_and_to_a_source : regAfter 0 (one 0x00208033 [(1, 5), (2, 6)]) = some 0 ∧
    regAfter 1 (one 0x001080B3 [(1, 0x40000000)]) = some 0x80000000 := by decide
/-- S3, V1.3. -/
theorem test_sub : regAfter 3 (one 0x401101B3 [(2, 15), (1, 10)]) = some 5 ∧
    regAfter 3 (one 0x402081B3 [(1, 0), (2, 1)]) = some 0xFFFFFFFF := by decide
/-- V1.7. -/
theorem test_and : regAfter 5 (one 0x007372B3 [(6, 0xF0F0F0F0), (7, 0xFF00FF00)]) = some 0xF000F000 := by decide
/-- V1.8. -/
theorem test_or : regAfter 5 (one 0x007362B3 [(6, 0xF0F0F0F0), (7, 0xFF00FF00)]) = some 0xFFF0FFF0 := by decide
/-- V1.9. -/
theorem test_xor : regAfter 5 (one 0x007342B3 [(6, 0xF0F0F0F0), (7, 0xFF00FF00)]) = some 0x0FF00FF0 := by decide
/-- V2.1, V2.3, V2.4. -/
theorem test_addi : regAfter 1 (one 0xFFF08093 [(1, 0)]) = some 0xFFFFFFFF ∧
    regAfter 1 (one 0x80000093 []) = some 0xFFFFF800 ∧
    regAfter 1 (one 0x00108093 [(1, 0x7FFFFFFF)]) = some 0x80000000 := by decide
/-- S0: x0 after `ADDI x0,x0,-1`. -/
theorem test_addi_x0 : regAfter 0 (one 0xFFF00013 []) = some 0 := by decide
/-- V2.5, V2.7, V2.8. -/
theorem test_slti : regAfter 4 (one 0x0052A213 [(5, 0xFFFFFFFD)]) = some 1 ∧
    regAfter 4 (one 0xFFF0A213 [(1, 0xFFFFFFFF)]) = some 0 ∧
    regAfter 4 (one 0x0000A213 [(1, 0x80000000)]) = some 1 := by decide
/-- V2.6, V2.9, V2.10. -/
theorem test_sltiu : regAfter 4 (one 0x0052B213 [(5, 0xFFFFFFFD)]) = some 0 ∧
    regAfter 4 (one 0xFFF0B213 [(1, 0xFFFFFFFE)]) = some 1 ∧
    regAfter 4 (one 0xFFF0B213 [(1, 0xFFFFFFFF)]) = some 0 := by decide

/-- The Memory of table V3: 78 56 34 12 DD CC BB AA at 0x100. -/
def v3 (w : Word) (x2 : Word) : State :=
  running 0 [(2, x2)] [(0, w), (0x100, 0x12345678), (0x104, 0xAABBCCDD)]

/-- V3.1, V3.2, V3.4, V3.6. -/
theorem test_lw : regAfter 3 (v3 0x00012183 0x100) = some 0x12345678 ∧
    regAfter 3 (v3 0x00112183 0x100) = some 0xDD123456 ∧ regAfter 3 (v3 0xFFC12183 0x104) = some 0x12345678 ∧
    regAfter 2 (v3 0x00012103 0x100) = some 0x12345678 := by decide
/-- V3.7, V3.8, V3.9, V3.10: the bound, the wrap, and rd = x0. -/
theorem test_lw_bounds : regAfter 3 (v3 0x00012183 0x000FFFFC) = some 0 ∧
    statusAfter (v3 0x00012183 0x000FFFFD) = some (.faulted .memoryOutOfBounds 0x000FFFFD) ∧
    statusAfter (v3 0xFFC02183 0x100) = some (.faulted .memoryOutOfBounds 0xFFFFFFFC) ∧
    statusAfter (v3 0x00012003 0x00100000) = some (.faulted .memoryOutOfBounds 0x00100000) := by decide
/-- V4.1, V4.2. -/
theorem test_sw :
    bytesAfter 0x100 4 (one 0x00112023 [(1, 0x12345678), (2, 0x100)]) = some [0x78, 0x56, 0x34, 0x12] ∧
    bytesAfter 0xFE 6 (one 0xFE112FA3 [(1, 0x12345678), (2, 0x100)]) = some [0, 0x78, 0x56, 0x34, 0x12, 0] := by
  decide
/-- V4.5: no partial write, the pc stays. -/
theorem test_sw_bounds :
    statusAfter (one 0x00112023 [(1, 0x12345678), (2, 0x000FFFFE)]) =
      some (.faulted .memoryOutOfBounds 0x000FFFFE) ∧
    bytesAfter 0xFFFFE 2 (one 0x00112023 [(1, 0x12345678), (2, 0x000FFFFE)]) = some [0, 0] ∧
    pcAfter (one 0x00112023 [(1, 0x12345678), (2, 0x000FFFFE)]) = some 0 := by decide

/-- The four columns of table V5.1: the pc after `Bxx x1,x2,16` at 0x20. -/
def v5 (w : Word) : List (Option Word) :=
  [(5, 5), (0xFFFFFFFF, 1), (1, 0xFFFFFFFF), (0x80000000, 0x7FFFFFFF)].map fun p =>
    pcAfter (running 0x20 [(1, p.1), (2, p.2)] [(0x20, w)])

theorem test_beq : v5 0x00208863 = [some 0x30, some 0x24, some 0x24, some 0x24] := by decide
theorem test_bne : v5 0x00209863 = [some 0x24, some 0x30, some 0x30, some 0x30] := by decide
theorem test_blt : v5 0x0020C863 = [some 0x24, some 0x30, some 0x24, some 0x30] := by decide
theorem test_bge : v5 0x0020D863 = [some 0x30, some 0x24, some 0x30, some 0x24] := by decide
theorem test_bltu : v5 0x0020E863 = [some 0x24, some 0x24, some 0x30, some 0x24] := by decide
theorem test_bgeu : v5 0x0020F863 = [some 0x30, some 0x30, some 0x24, some 0x30] := by decide
/-- V5.2, V5.4, V5.7: backward, misaligned and wrapped targets are accepted. -/
theorem test_branch_targets : pcAfter (running 0x1000 [] [(0x1000, 0xFE000CE3)]) = some 0x0FF8 ∧
    pcAfter (running 0x1000 [] [(0x1000, 0x00000363)]) = some 0x1006 ∧
    pcAfter (running 0 [] [(0, 0xFE000CE3)]) = some 0xFFFFFFF8 := by decide
/-- S4, V6.1, V6.10. -/
theorem test_lui : regAfter 1 (one 0x123450B7 []) = some 0x12345000 ∧
    regAfter 1 (one 0xFFFFF0B7 []) = some 0xFFFFF000 ∧ regAfter 0 (one 0x12345037 []) = some 0 := by decide
/-- S5, V6.4. -/
theorem test_auipc : regAfter 2 (running 4 [] [(4, 0x00001117)]) = some 0x00001004 ∧
    regAfter 2 (running 0x10 [] [(0x10, 0xFFFFF117)]) = some 0xFFFFF010 := by decide
/-- V6.5, V6.6. -/
theorem test_jal : regAfter 1 (running 0x18 [] [(0x18, 0x008000EF)]) = some 0x1C ∧
    pcAfter (running 0x18 [] [(0x18, 0x008000EF)]) = some 0x20 ∧
    pcAfter (running 0x28 [] [(0x28, 0xFF5FF06F)]) = some 0x1C := by decide
/-- V6.7, V6.9: wrapped and misaligned targets; the link is written. -/
theorem test_jal_targets : regAfter 1 (one 0xFFDFF0EF []) = some 4 ∧ pcAfter (one 0xFFDFF0EF []) = some 0xFFFFFFFC ∧
    regAfter 1 (one 0x006000EF []) = some 4 ∧ pcAfter (one 0x006000EF []) = some 6 := by decide

/-! ### The controller -/

/-- V7.10: an unsupported opcode is reported and skipped. -/
theorem test_unsupported_opcode : pcAfter (one 0x00008067 [(1, 0x40)]) = some 4 ∧
    statusAfter (one 0x00008067 [(1, 0x40)]) = some .running ∧
    (one 0x00008067 [(1, 0x40)]).report = some ⟨.unsupportedOpcode, 0, 0x00008067⟩ := by decide
/-- V1.11, V5.8: an unsupported instruction is reported and skipped. -/
theorem test_unsupported_instruction :
    regAfter 5 (one 0x027372B3 [(5, 9), (6, 0xF0F0F0F0), (7, 0xFF00FF00)]) = some 9 ∧
    pcAfter (running 0x1000 [] [(0x1000, 0x0020A863)]) = some 0x1004 ∧
    (one 0x027372B3 []).report = some ⟨.unsupportedInstruction, 0, 0x027372B3⟩ := by decide
/-- V7.11, V8.4: the halt word. -/
theorem test_halt_word : statusAfter (running 0 [] []) = some .halted ∧ pcAfter (running 0 [] []) = some 0 ∧
    (running 0 [] []).report = none := by decide
/-- S6: past the last word of Memory. -/
theorem test_fetch_out_of_bounds :
    pcAfter (running 0x000FFFFC [] [(0x000FFFFC, 0x00100093)]) = some 0x00100000 ∧
    statusAfter (running 0x00100000 [] []) = some (.faulted .memoryOutOfBounds 0x00100000) := by decide
/-- V8.2, V8.3: the bounds check wins over alignment. -/
theorem test_fetch_misaligned :
    statusAfter (running 6 [] []) = some (.faulted .alignmentViolation 6) ∧
    statusAfter (running 0x00100002 [] []) = some (.faulted .memoryOutOfBounds 0x00100002) := by decide
/-- The machine after reset waits for the host: Idle, and a step changes nothing. -/
theorem test_reset_waits : after State.reset = some State.reset := by decide
/-- The first step after a word is placed at reset runs it. -/
theorem test_withFetchWord : (after (State.reset.withFetchWord 32 0x00A00093)).map (·.readReg 1) = some 10 ∧
    State.reset.withFetchWord 32 0x00A00093 = one 0x00A00093 [] ∧
    (running 0x20 [] []).withFetchWord 32 0x13 = running 0x20 [] [(0x20, 0x13)] := by decide
/-- A trace event carries the pc, the opcode and the instruction. -/
theorem test_trace_event : (one 0x00A00093 []).traceEvent = some ⟨0, 0x13, .addi 1 0 10⟩ := by decide

/-! ### The host interface -/

/-- S1: `load_bytes` and `run` to the halt word; the two registers, the pc and the exit signal. -/
theorem test_scenario_1 :
    (match loadBytes 0 [0x93, 0x00, 0xA0, 0x00, 0x13, 0x01, 0xF0, 0x00] State.reset with
      | .ok s =>
        match requestRun s with
        | .ok t => (runCycles 3 t).map fun u => (u.readReg 1, u.readReg 2, u.pc, exitSignal u.status)
        | .memoryOutOfBounds => none
        | .runInProgress => none
      | .memoryOutOfBounds => none
      | .runInProgress => none) = some (10, 15, 8, some 0) := by decide
/-- R311, R314, R315: out of range, and during a run. -/
theorem test_host_refusals : loadBytes 0xFFFFF [1, 2] State.reset = .memoryOutOfBounds ∧
    loadBytes 0 [1] (running 0 [] []) = .runInProgress ∧ inspectByte 0x100000 State.reset = .memoryOutOfBounds ∧
    requestRun (running 0 [] []) = .runInProgress ∧ inspectRegister 0 State.reset = .ok 0 := by decide
/-- V8.1's end: exit signal 3 with the address, and 4 for a misaligned fetch (V8.3). -/
theorem test_exit_signals : exitSignal (.faulted .memoryOutOfBounds 8) = some 3 ∧
    faultAddress (.faulted .memoryOutOfBounds 8) = some 8 ∧
    exitSignal (.faulted .alignmentViolation 6) = some 4 ∧ exitSignal .halted = some 0 ∧
    exitSignal .running = none := by decide
/-- V8.1: a core built with another CAPACITY. -/
theorem test_small_capacity :
    statusAfter { State.construct { Config.reference with capacity := 8 } with status := .running, pc := 8 } =
      some (.faulted .memoryOutOfBounds 8) := by decide
/-- Writing zero over a byte restores the canonical form. -/
theorem test_memory_canonical : ((State.reset.mem.writeByte 7 5).writeByte 3 1).cells = [(3, 1), (7, 5)] ∧
    ((State.reset.mem.writeByte 7 5).writeByte 7 0) = State.reset.mem := by decide

end Sys2Proof.Tests
end

