-- ==== Sys2Proof/Tests/Witnesses.lean ====
section
/-! SUPPORT. For each statement of Certificates/Slice0/Obligations.lean that has hypotheses, a concrete state
and operands that meet them together; for a statement of several clauses, one for each clause, at a
boundary of its range. -/

namespace Sys2Proof.Tests

open Sys2Proof.Machine

/-! ### Words -/

theorem witness_RShapeRecordHoldsItsFields : (0xFFFFFFB3 : Word).toNat % 128 = 0x33 := by decide
theorem witness_IAndSShapeRecordsHoldTheirFields :
    (0x80000093 : Word).toNat % 128 = 0x13 ∧ (0xFFC12183 : Word).toNat % 128 = 0x03 ∧
    (0xFE112FA3 : Word).toNat % 128 = 0x23 := by decide
theorem witness_BUAndJShapeRecordsHoldTheirFields :
    (0x80000063 : Word).toNat % 128 = 0x63 ∧ (0xFFFFF0B7 : Word).toNat % 128 = 0x37 ∧
    (0xFFFFF117 : Word).toNat % 128 = 0x17 ∧ (0x8000006F : Word).toNat % 128 = 0x6F := by decide
theorem witness_ShapeFollowsTheOpcodeAlone :
    opcodeOf 0x002081B3 = opcodeOf 0x40004033 ∧
    opcodeOf 0x00008067 ∉ ([0x33, 0x13, 0x03, 0x23, 0x63, 0x37, 0x17, 0x6F] : List Opcode) := by decide
theorem witness_DecodeUnitInvertsEncodeRecord :
    (Record.r 0x33 31 7 31 31 127).wf = true ∧ (Record.i 0x13 31 7 31 (-2048)).wf = true ∧
    (Record.i 0x03 31 7 31 2047).wf = true ∧ (Record.s 0x23 7 31 31 (-2048)).wf = true ∧
    (Record.b 0x63 7 31 31 4094).wf = true ∧ (Record.u 0x37 31 0xFFFFF000).wf = true ∧
    (Record.u 0x17 31 0x80000000).wf = true ∧ (Record.j 0x6F 31 1048574).wf = true := by decide
theorem witness_DecodeInvertsEncode :
    (Instr.add 31 31 31).wf = true ∧ (Instr.addi 31 31 2047).wf = true ∧ (Instr.sw 31 31 (-2048)).wf = true ∧
    (Instr.bgeu 31 31 (-4096)).wf = true ∧ (Instr.auipc 31 0xFFFFF000).wf = true ∧
    (Instr.jal 31 (-1048576)).wf = true := by decide
theorem witness_EncodeInvertsDecode : decode 0x80000063 = .instr (.beq 0 0 (-4096)) := by decide
theorem witness_OpcodeMapIsExact :
    decode 0xFE112FA3 = .instr (.sw 2 1 (-1)) ∧
    0xFFFFFFB3 &&& (Instr.xor 0 0 0).mask ≠ (Instr.xor 0 0 0).matchWord ∧
    0x01FFCFB3 &&& (Instr.xor 0 0 0).mask = (Instr.xor 0 0 0).matchWord := by decide
theorem witness_Funct3SelectsTheBranch :
    opcodeOf 0x00208863 = 0x63 ∧ funct3Of 0x00208863 = 0x0 ∧ opcodeOf 0x00209863 = 0x63 ∧
    funct3Of 0x00209863 = 0x1 ∧ opcodeOf 0x0020C863 = 0x63 ∧ funct3Of 0x0020C863 = 0x4 ∧
    opcodeOf 0x0020D863 = 0x63 ∧ funct3Of 0x0020D863 = 0x5 ∧ opcodeOf 0x0020E863 = 0x63 ∧
    funct3Of 0x0020E863 = 0x6 ∧ opcodeOf 0x0020F863 = 0x63 ∧ funct3Of 0x0020F863 = 0x7 ∧
    opcodeOf 0x0020A863 = 0x63 ∧ funct3Of 0x0020A863 = 0x2 ∧ opcodeOf 0x0020B863 = 0x63 ∧
    funct3Of 0x0020B863 = 0x3 := by decide
/-- Two states that agree on x1 and x2 and differ on x3, the destination. -/
theorem witness_RegisterAluTouchesOnlyItsRegisters :
    opcodeOf 0x002081B3 = 0x33 ∧ decode 0x002081B3 = .instr (.add 3 1 2) ∧
    (one 0 [(1, 5), (3, 9)]).readReg (rs1Of 0x002081B3) = (one 0 [(1, 5)]).readReg (rs1Of 0x002081B3) ∧
    (one 0 [(1, 5), (3, 9)]).readReg (rs2Of 0x002081B3) = (one 0 [(1, 5)]).readReg (rs2Of 0x002081B3) ∧
    (one 0 [(1, 5), (3, 9)]).readReg 3 ≠ (one 0 [(1, 5)]).readReg 3 := by decide
theorem witness_RegisterAlu_both_execute :
    (∃ t, exec (.add 3 1 2) (one 0 [(1, 5), (3, 9)]) = .next t) ∧
    ∃ t, exec (.add 3 1 2) (one 0 [(1, 5)]) = .next t := ⟨⟨_, rfl⟩, ⟨_, rfl⟩⟩
theorem witness_ImmediateAluSelectsAndTouchesOnlyItsRegisters :
    opcodeOf 0x80000093 = 0x13 ∧ funct3Of 0x80000093 = 0x0 ∧ decode 0x80000093 = .instr (.addi 1 0 (-2048)) ∧
    opcodeOf 0x0052A213 = 0x13 ∧ funct3Of 0x0052A213 = 0x2 ∧ opcodeOf 0x0052B213 = 0x13 ∧
    funct3Of 0x0052B213 = 0x3 ∧ opcodeOf 0x00005013 = 0x13 ∧
    funct3Of 0x00005013 ∉ ([0x0, 0x2, 0x3] : List Funct3) ∧
    (one 0 [(1, 9)]).readReg (rs1Of 0x80000093) = (one 0 [(1, 8)]).readReg (rs1Of 0x80000093) := by decide
theorem witness_ImmediateAlu_both_execute :
    (∃ t, exec (.addi 1 0 (-2048)) (one 0 [(1, 9)]) = .next t) ∧
    ∃ t, exec (.addi 1 0 (-2048)) (one 0 [(1, 8)]) = .next t := ⟨⟨_, rfl⟩, ⟨_, rfl⟩⟩
/-- The encoding clause, and a register just below the immediate and equal to it. -/
theorem witness_SltiComparesSigned : 0x0052A213 &&& 0x0000707F = (0x00002013 : Word) ∧
    s32 ((one 0 [(5, 0xFFFFFFFE)]).readReg 5) < s32 (-1) ∧
    s32 (-1) ≤ s32 ((one 0 [(5, 0xFFFFFFFF)]).readReg 5) := by decide
theorem witness_SltiuComparesUnsigned : 0x0052B213 &&& 0x0000707F = (0x00003013 : Word) ∧
    u32 ((one 0 [(5, 0xFFFFFFFE)]).readReg 5) < u32 (-1) ∧
    u32 (-1) ≤ u32 ((one 0 [(5, 0xFFFFFFFF)]).readReg 5) := by decide
theorem witness_LuiWritesTheUpperImmediate : 0xFFFFF0B7 &&& 0x0000007F = (0x00000037 : Word) := by decide
theorem witness_AuipcWritesPcPlusImmediate : 0xFFFFF117 &&& 0x0000007F = (0x00000017 : Word) := by decide
theorem witness_JalLinksAndJumps : 0xFF5FF06F &&& 0x0000007F = (0x0000006F : Word) := by decide
theorem witness_BeqAndBneDecideOnEquality :
    (one 0 [(1, 5), (2, 5)]).readReg 1 = (one 0 [(1, 5), (2, 5)]).readReg 2 ∧
    (one 0 [(1, 5), (2, 4)]).readReg 1 ≠ (one 0 [(1, 5), (2, 4)]).readReg 2 := by decide
theorem witness_BltAndBgeDecideOnSignedOrder :
    s32 ((one 0 [(1, 0x80000000), (2, 0x7FFFFFFF)]).readReg 1) <
      s32 ((one 0 [(1, 0x80000000), (2, 0x7FFFFFFF)]).readReg 2) ∧
    s32 ((one 0 [(1, 5), (2, 5)]).readReg 2) ≤ s32 ((one 0 [(1, 5), (2, 5)]).readReg 1) := by decide
theorem witness_BltuAndBgeuDecideOnUnsignedOrder :
    u32 ((one 0 [(1, 0x7FFFFFFF), (2, 0x80000000)]).readReg 1) <
      u32 ((one 0 [(1, 0x7FFFFFFF), (2, 0x80000000)]).readReg 2) ∧
    u32 ((one 0 [(1, 5), (2, 5)]).readReg 2) ≤ u32 ((one 0 [(1, 5), (2, 5)]).readReg 1) := by decide

/-! ### Memory, load and store -/

/-- The last word of Memory. -/
theorem witness_WordWriteSetsFourBytesAndNoOther :
    State.reset.mem.wf ∧ u32 0x000FFFFC + 4 ≤ State.reset.mem.capacity := by decide
theorem witness_LwLoadsTheWordInBounds : 0x00012183 &&& 0x0000707F = (0x00002003 : Word) ∧
    u32 (effectiveAddress (one 0 [(2, 0x000FFFFC)]) 2 0) + 4 ≤ (one 0 [(2, 0x000FFFFC)]).mem.capacity := by decide
theorem witness_SwStoresTheWordInBounds : 0x00112023 &&& 0x0000707F = (0x00002023 : Word) ∧
    (one 0 [(2, 0x000FFFFC)]).mem.wf ∧
    u32 (effectiveAddress (one 0 [(2, 0x000FFFFC)]) 2 0) + 4 ≤ (one 0 [(2, 0x000FFFFC)]).mem.capacity := by decide
theorem witness_LoadAndStoreOutOfBoundsFault :
    (one 0 [(2, 0x000FFFFD)]).mem.capacity < u32 (effectiveAddress (one 0 [(2, 0x000FFFFD)]) 2 0) + 4 := by decide

/-- `SW x1,4(x0)` at pc 0, over the next instruction. -/
def storeAhead : State := one 0x00102223 [(1, 0x13)]

theorem storeAhead_fetches : Fetches storeAhead 0x00102223 := ⟨by decide, by decide, by decide, by decide⟩
theorem witness_StoreIsSeenByTheNextFetch : Fetches storeAhead 0x00102223 ∧ storeAhead.mem.wf ∧
    decode 0x00102223 = .instr (.sw 0 1 4) ∧ effectiveAddress storeAhead 0 4 = storeAhead.pc + 4 ∧
    u32 storeAhead.pc + 8 ≤ storeAhead.mem.capacity ∧ storeAhead.mem.capacity ≤ 2 ^ 32 - 4 :=
  ⟨storeAhead_fetches, by decide, by decide, by decide, by decide, by decide⟩

/-! ### The controller -/

/-- `ADDI x1,x0,1` in the last word of Memory (S6). -/
def lastWord : State := running 0x000FFFFC [] [(0x000FFFFC, 0x00100093)]

theorem lastWord_fetches : Fetches lastWord 0x00100093 := ⟨by decide, by decide, by decide, by decide⟩
theorem lastWord_inv : lastWord.Inv := ⟨by decide, by decide, by decide, by decide, trivial⟩

theorem witness_StepRunsTheDecodedInstruction :
    Fetches lastWord 0x00100093 ∧ decode 0x00100093 = .instr (.addi 1 0 1) := ⟨lastWord_fetches, by decide⟩
theorem witness_FetchOutOfBoundsFaults :
    (running 0x00100000 [] []).status = .running ∧
    (running 0x00100000 [] []).mem.capacity < u32 (running 0x00100000 [] []).pc + 4 ∧
    u32 lastWord.pc + 4 ≤ lastWord.mem.capacity ∧ u32 lastWord.pc % 4 = 0 := by decide
/-- A pc of 0xFFFFA, backed and not a multiple of 4; and `JAL x1,6` at 0 (P4). -/
theorem witness_MisalignedFetchFaults :
    ((running 0x000FFFFA [] []).status = .running ∧
      u32 (running 0x000FFFFA [] []).pc + 4 ≤ (running 0x000FFFFA [] []).mem.capacity ∧
      u32 (running 0x000FFFFA [] []).pc % 4 ≠ 0) ∧
    Fetches (one 0x006000EF []) 0x006000EF ∧ decode 0x006000EF = .instr (.jal 1 6) ∧
    u32 ((one 0x006000EF []).pc + 6) % 4 ≠ 0 ∧
    u32 ((one 0x006000EF []).pc + 6) + 4 ≤ (one 0x006000EF []).mem.capacity :=
  ⟨by decide, ⟨by decide, by decide, by decide, by decide⟩, by decide, by decide, by decide⟩
theorem witness_HaltWordHalts : Fetches (running 0 [] []) 0 := ⟨by decide, by decide, by decide, by decide⟩
theorem witness_UnsupportedOpcodeIsReportedAndSkipped :
    Fetches (one 0x00008067 []) 0x00008067 ∧ (0x00008067 : Word) ≠ 0 ∧
    opcodeOf 0x00008067 ∉ ([0x33, 0x13, 0x03, 0x23, 0x63, 0x37, 0x17, 0x6F] : List Opcode) :=
  ⟨⟨by decide, by decide, by decide, by decide⟩, by decide, by decide⟩
/-- One word for each of the five cases. -/
theorem witness_UnsupportedInstructionIsReportedAndSkipped :
    (Fetches (one 0x027372B3 []) 0x027372B3 ∧ opcodeOf 0x027372B3 = 0x33 ∧
      (funct3Of 0x027372B3, funct7Of 0x027372B3) ∉
        ([(0x0, 0x00), (0x0, 0x20), (0x7, 0x00), (0x6, 0x00), (0x4, 0x00)] : List (Funct3 × Funct7))) ∧
    (Fetches (one 0x00005013 []) 0x00005013 ∧ opcodeOf 0x00005013 = 0x13 ∧
      funct3Of 0x00005013 ∈ ([0x1, 0x4, 0x5, 0x6, 0x7] : List Funct3)) ∧
    (Fetches (one 0x00005003 []) 0x00005003 ∧ opcodeOf 0x00005003 = 0x03 ∧ funct3Of 0x00005003 ≠ 0x2) ∧
    (Fetches (one 0x00000023 []) 0x00000023 ∧ opcodeOf 0x00000023 = 0x23 ∧ funct3Of 0x00000023 ≠ 0x2) ∧
    (Fetches (one 0x0020A863 []) 0x0020A863 ∧ opcodeOf 0x0020A863 = 0x63 ∧
      funct3Of 0x0020A863 ∈ ([0x2, 0x3] : List Funct3)) :=
  ⟨⟨⟨by decide, by decide, by decide, by decide⟩, by decide⟩,
    ⟨⟨by decide, by decide, by decide, by decide⟩, by decide⟩,
    ⟨⟨by decide, by decide, by decide, by decide⟩, by decide⟩,
    ⟨⟨by decide, by decide, by decide, by decide⟩, by decide⟩,
    ⟨by decide, by decide, by decide, by decide⟩, by decide⟩
/-- `ADDI x1,x0,1`: the run goes on, and x1 changes. -/
theorem witness_ZeroEnforcementEndsEveryExecutedCycle : Fetches lastWord 0x00100093 ∧ (0x00100093 : Word) ≠ 0 ∧
    ∃ t, step lastWord = .next t ∧ t.status = .running :=
  ⟨lastWord_fetches, by decide, _, rfl, by decide⟩
theorem witness_OnlyTheDestinationRegisterIsWritten :
    ∃ t, step lastWord = .next t ∧ (1 : RegIdx) ≠ 0 ∧ t.readReg 1 ≠ lastWord.readReg 1 :=
  ⟨_, rfl, by decide, by decide⟩
theorem witness_OnlySwChangesMemory :
    ∃ t, step storeAhead = .next t ∧ t.mem.readByte 4 ≠ storeAhead.mem.readByte 4 := ⟨_, rfl, by decide⟩
/-- A sequential advance, a taken branch and a JAL. -/
theorem witness_PcAdvancesByFourUnlessTransferred :
    (Fetches lastWord 0x00100093 ∧ ∃ t, step lastWord = .next t ∧ t.status = .running ∧
      t.pc = lastWord.pc + 4) ∧
    (Fetches (one 0x00000863 []) 0x00000863 ∧ ∃ t, step (one 0x00000863 []) = .next t ∧
      t.status = .running ∧ t.pc = 16) ∧
    (Fetches (one 0x008000EF []) 0x008000EF ∧ ∃ t, step (one 0x008000EF []) = .next t ∧
      t.status = .running ∧ t.pc = 8) :=
  ⟨⟨lastWord_fetches, _, rfl, by decide, by decide⟩,
    ⟨⟨by decide, by decide, by decide, by decide⟩, _, rfl, by decide, by decide⟩,
    ⟨by decide, by decide, by decide, by decide⟩, _, rfl, by decide, by decide⟩
theorem witness_SequentialAdvanceDoesNotWrap : lastWord.Inv ∧ Fetches lastWord 0x00100093 ∧
    u32 lastWord.pc + 4 = lastWord.mem.capacity ∧
    ∃ t, step lastWord = .next t ∧ t.status = .running ∧ t.pc = lastWord.pc + 4 :=
  ⟨lastWord_inv, lastWord_fetches, by decide, _, rfl, by decide, by decide⟩
/-- V3.9 and a fetch past the end. -/
theorem witness_FatalErrorsArePrecise :
    ((one 0xFFC02183 []).status = .running ∧ ∃ t, step (one 0xFFC02183 []) = .next t ∧
      t.status = .faulted .memoryOutOfBounds 0xFFFFFFFC) ∧
    ((running 0x00100000 [] []).status = .running ∧ ∃ t, step (running 0x00100000 [] []) = .next t ∧
      t.status = .faulted .memoryOutOfBounds 0x00100000) :=
  ⟨⟨by decide, _, rfl, by decide⟩, by decide, _, rfl, by decide⟩
theorem witness_RunEndsExactlyAtHaltOrFatalError :
    lastWord.status = .running ∧ (∃ t, step lastWord = .next t) ∧
    (running 0 [] []).status = .running ∧ ∃ t, step (running 0 [] []) = .next t ∧ t.status ≠ .running :=
  ⟨by decide, ⟨_, rfl⟩, by decide, _, rfl, by decide⟩
theorem witness_EveryStepAnswersANextState : State.reset.status ≠ .running := by decide

/-! ### The invariant and the host interface -/

theorem witness_StepKeepsTheInvariant : lastWord.Inv ∧ ∃ t, step lastWord = .next t ∧ t ≠ lastWord :=
  ⟨lastWord_inv, _, rfl, by decide⟩
/-- The smallest and the largest CAPACITY. -/
theorem witness_ConstructionMeetsTheInvariant : capacityAllowed 4 ∧ capacityAllowed (2 ^ 32 - 4) := by decide
theorem witness_ConstructionValues : (31 : RegIdx) ≠ 0 := by decide
/-- A load that ends at CAPACITY, one that ends one past it, and one during a run. -/
theorem witness_LoadBytesWritesVerbatimOrNothing :
    State.reset.status ≠ .running ∧ State.reset.mem.wf ∧ 0x000FFFFE + 2 ≤ State.reset.mem.capacity ∧
    State.reset.mem.capacity < 0x000FFFFF + 2 ∧ lastWord.status = .running := by decide
theorem witness_RunStartsAtZeroWithStateKept :
    State.reset.status ≠ .running ∧ lastWord.status = .running := by decide
theorem reset_inv : State.reset.Inv := ⟨by decide, by decide, by decide, by decide, rfl⟩
theorem witness_InspectionAnswersTheState : State.reset.status ≠ .running ∧ State.reset.Inv ∧
    0x000FFFFF < State.reset.mem.capacity ∧ State.reset.mem.capacity ≤ 0x00100000 :=
  ⟨by decide, reset_inv, by decide, by decide⟩
theorem witness_HostRequestsKeepTheInvariant : State.reset.Inv ∧
    (∃ t, loadBytes 0x000FFFFE [1, 2] State.reset = .ok t) ∧ ∃ t, requestRun State.reset = .ok t :=
  ⟨reset_inv, ⟨_, rfl⟩, ⟨_, rfl⟩⟩
/-- Runs that end at the halt word, at MemoryOutOfBounds and at AlignmentViolation. -/
theorem witness_EndedRunPresentsItsExitSignal :
    ((running 0 [] []).status = .running ∧ ∃ t, runCycles 1 (running 0 [] []) = some t) ∧
    (lastWord.status = .running ∧ ∃ t, runCycles 2 lastWord = some t) ∧
    ((running 6 [] []).status = .running ∧ ∃ t, runCycles 1 (running 6 [] []) = some t) :=
  ⟨⟨by decide, _, rfl⟩, ⟨by decide, _, rfl⟩, by decide, _, rfl⟩
/-- V7.10: a reported word. V3.9: an LW out of bounds. A fetch from a misaligned pc. -/
theorem witness_ErrorCodesFollowTheirClass :
    (one 0x00008067 []).report = some ⟨.unsupportedOpcode, 0, 0x00008067⟩ ∧
    ((one 0xFFC02183 []).status = .running ∧ ∃ t, step (one 0xFFC02183 []) = .next t ∧
      t.status = .faulted .memoryOutOfBounds 0xFFFFFFFC) ∧
    ((running 6 [] []).status = .running ∧ ∃ t, step (running 6 [] []) = .next t ∧
      t.status = .faulted .alignmentViolation 6) :=
  ⟨by decide, ⟨by decide, _, rfl, by decide⟩, by decide, _, rfl, by decide⟩

end Sys2Proof.Tests
end

section
/-! Proofs for 10_state.md: which register a step may change, and zero enforcement. -/

/-! ### The destination of a decoded word -/

namespace Sys2Proof

/-- The rd a record carries: the R, I, U and J shapes have one, the others none (30_encoding.md R101). -/
def Record.rd? : Record → Option RegIdx
  | .r _ rd _ _ _ _ => some rd
  | .i _ rd _ _ _ => some rd
  | .u _ rd _ => some rd
  | .j _ rd _ => some rd
  | .s _ _ _ _ _ => none
  | .b _ _ _ _ _ => none
  | .unsupported _ => none

/-- The decode unit takes every rd from the word's own rd field (30_encoding.md R91). -/
theorem eq_rdOf_of_rd?_decodeUnit {w : Word} {r : RegIdx} (h : (decodeUnit w).rd? = some r) :
    r = rdOf w := by
  unfold decodeUnit at h
  split_ifs at h <;> cases h <;> rfl

end Sys2Proof

namespace Sys2Proof.Machine

/-- The selection by funct fields writes exactly the register its record carries. -/
theorem destOf_of_select {rec : Record} {i : Instr} (h : select rec = .instr i) : destOf i = rec.rd? := by
  cases rec with
  | r op rd f3 rs1 rs2 f7 =>
    simp only [select, selectR] at h
    split_ifs at h <;> cases h <;> rfl
  | i op rd f3 rs1 imm =>
    simp only [select, selectLoad, selectImmediateAlu] at h
    split_ifs at h <;> cases h <;> rfl
  | s op f3 rs1 rs2 imm =>
    simp only [select, selectS] at h
    split_ifs at h
    cases h
    rfl
  | b op f3 rs1 rs2 imm =>
    simp only [select, selectB] at h
    split_ifs at h <;> cases h <;> rfl
  | u op rd imm =>
    simp only [select] at h
    split_ifs at h <;> cases h <;> rfl
  | j op rd imm => cases h; rfl
  | unsupported op => cases h

/-- A decoded instruction that writes a register writes the word's rd. -/
theorem eq_rdOf_of_destOf {w : Word} {i : Instr} {r : RegIdx} (hd : decode w = .instr i)
    (hr : destOf i = some r) : r = rdOf w :=
  eq_rdOf_of_rd?_decodeUnit ((destOf_of_select hd).symm.trans hr)

/-- The instructions that write no register, by their rows of the opcode table: SW and the six branches
(10_state.md R33, 30_encoding.md R104). -/
theorem destOf_eq_none_iff (i : Instr) : destOf i = none ↔
    i.matchWord ∈ ([0x2023, 0x63, 0x1063, 0x4063, 0x5063, 0x6063, 0x7063] : List Word) := by
  cases i with
  | sw | beq | bne | blt | bge | bltu | bgeu => exact iff_of_true rfl (by simp [Instr.matchWord])
  | _ => exact iff_of_false (by simp [destOf]) (by simp [Instr.matchWord])

/-! ### What a step does to the registers -/

/-- A step either leaves the register file untouched and no run going on, or ends the cycle of a fetched
word, with a register write only where the word's instruction has one. -/
theorem step_regs_cases {s t : State} (h : step s = .next t) :
    (t.regs = s.regs ∧ t.status ≠ .running) ∨
    ∃ w e, Fetches s w ∧ t = retire e s ∧
      (e.regWrite = none ∨ ∃ i, decode w = .instr i ∧ e.regWrite.map Prod.fst = destOf i) := by
  by_cases hs : s.status = .running
  · obtain ⟨k, -, hstep⟩ | ⟨-, hstep⟩ | ⟨w, i, hf, -, hd, hstep⟩ | ⟨w, hf, -, -, hstep⟩ :=
      step_running_cases hs
    · cases hstep.symm.trans h
      exact .inl ⟨rfl, by simp⟩
    · cases hstep.symm.trans h
      exact .inl ⟨rfl, by simp⟩
    · obtain ⟨e, hexec, hdest, -⟩ | ⟨rs1, imm, -, -, hexec⟩ := exec_cases i s
      · cases (hstep.trans hexec).symm.trans h
        exact .inr ⟨w, e, hf, rfl, .inr ⟨i, hd, hdest⟩⟩
      · cases (hstep.trans hexec).symm.trans h
        exact .inl ⟨rfl, by simp⟩
    · cases hstep.symm.trans h
      exact .inr ⟨w, _, hf, rfl, .inl rfl⟩
  · cases (step_of_not_running hs).symm.trans h
    exact .inl ⟨rfl, hs⟩

/-- Ending a cycle changes no register but x0 and the one the effect writes. -/
theorem regWrite_of_readReg_retire_ne {e : Effect} {s : State} {r : RegIdx} (h0 : r ≠ 0)
    (h : (retire e s).readReg r ≠ s.readReg r) : e.regWrite.map Prod.fst = some r := by
  cases he : e.regWrite with
  | none => exact absurd (by rw [readReg_retire_none e s he, if_neg h0]) h
  | some p =>
    obtain ⟨rd, v⟩ := p
    rw [readReg_retire_some e s rd v he, if_neg h0] at h
    have hrd : r = rd := by
      by_contra hne
      exact h (if_neg hne)
    rw [hrd]
    rfl

/-! ### The obligations -/

/-- Settles O36: a cycle that leaves the run going ends by zero enforcement. -/
theorem zeroEnforcementEndsEveryExecutedCycle : Obligations.ZeroEnforcementEndsEveryExecutedCycle := by
  intro s t w _ _ hstep hrun
  obtain ⟨-, hstop⟩ | ⟨_, e, -, rfl, -⟩ := step_regs_cases hstep
  · exact absurd hrun hstop
  · exact readReg_retire_zero e s

/-- Settles O37: a register that changed is the one its cycle's effect wrote, and that is the rd of the
fetched word. -/
theorem onlyTheDestinationRegisterIsWritten : Obligations.OnlyTheDestinationRegisterIsWritten := by
  refine ⟨fun s t r hstep h0 hne => ?_, destOf_eq_none_iff⟩
  obtain ⟨hregs, -⟩ | ⟨w, e, hf, rfl, hwrite⟩ := step_regs_cases hstep
  · exact absurd (readReg_eq_of_regs hregs r) hne
  · have hr : e.regWrite.map Prod.fst = some r := regWrite_of_readReg_retire_ne h0 hne
    obtain hnone | ⟨i, hd, hdest⟩ := hwrite
    · simp [hnone] at hr
    · have hri : destOf i = some r := hdest.symm.trans hr
      exact ⟨w, i, hf, hd, hri, eq_rdOf_of_destOf hd hri, ((fetches_iff s w).1 hf).1⟩

end Sys2Proof.Machine
end

section
/-! Proofs for 20_memory.md: a word access in terms of its four bytes. -/

namespace Sys2Proof

/-- In a concatenation the upper part counts at its place value. -/
theorem toNat_append_eq_add {m n : Nat} (x : BitVec m) (y : BitVec n) :
    (x ++ y).toNat = 2 ^ n * x.toNat + y.toNat := by
  rw [BitVec.toNat_append, Nat.two_pow_add_eq_or_of_lt y.isLt, Nat.shiftLeft_eq, Nat.mul_comm]

/-- A field as a number: the word without its bits below the field, reduced to the field's width. -/
theorem toNat_field (w : Word) (lo len : Nat) : (field w lo len).toNat = u32 w / 2 ^ lo % 2 ^ len := by
  rw [field, BitVec.extractLsb'_toNat, Nat.shiftRight_eq_div_pow]

/-- The word composed of four bytes, as a number (20_memory.md R62). -/
theorem toNat_wordOfBytes (b0 b1 b2 b3 : Byte) : u32 (wordOfBytes b0 b1 b2 b3) =
    b0.toNat + 2 ^ 8 * b1.toNat + 2 ^ 16 * b2.toNat + 2 ^ 24 * b3.toNat := by
  have hsum : u32 (wordOfBytes b0 b1 b2 b3) =
      2 ^ 8 * (2 ^ 8 * (2 ^ 8 * b3.toNat + b2.toNat) + b1.toNat) + b0.toNat := by
    simp only [wordOfBytes, toNat_append_eq_add]
  omega

end Sys2Proof

namespace Sys2Proof.Machine

/-- Settles O24: a word read is the word composed of its four bytes. -/
theorem wordReadComposesFourBytes : Obligations.WordReadComposesFourBytes :=
  fun _ _ => toNat_wordOfBytes _ _ _ _

/-- Settles O25: the bytes inside the word are the value's fields, the bytes outside are kept. -/
theorem wordWriteSetsFourBytesAndNoOther : Obligations.WordWriteSetsFourBytesAndNoOther := by
  intro m addr v hwf hbound
  refine ⟨fun k hk => ?_, fun a ha => readByte_writeWord_outside m addr v ha, writeWord_capacity m addr v⟩
  rw [readByte_writeWord_inside hwf ((fits_iff m addr).2 hbound) v hk, toNat_field]

end Sys2Proof.Machine
end

section
/-! Proofs for 30_encoding.md: the fields and the immediates of the decode unit's records. -/

namespace Sys2Proof

/-! ### The fields as numbers -/

theorem toNat_opcodeOf (w : Word) : (opcodeOf w).toNat = w.toNat % 128 := by
  have hfield : (opcodeOf w).toNat = w.toNat / 2 ^ 0 % 2 ^ 7 := toNat_field w 0 7
  omega
theorem toNat_rdOf (w : Word) : (rdOf w).toNat = w.toNat / 2 ^ 7 % 32 := toNat_field w 7 5
theorem toNat_funct3Of (w : Word) : (funct3Of w).toNat = w.toNat / 2 ^ 12 % 8 := toNat_field w 12 3
theorem toNat_rs1Of (w : Word) : (rs1Of w).toNat = w.toNat / 2 ^ 15 % 32 := toNat_field w 15 5
theorem toNat_rs2Of (w : Word) : (rs2Of w).toNat = w.toNat / 2 ^ 20 % 32 := toNat_field w 20 5
/-- funct7 ends at the word's top bit, so no bit above it is cut off. -/
theorem toNat_funct7Of (w : Word) : (funct7Of w).toNat = w.toNat / 2 ^ 25 := by
  have hfield : (funct7Of w).toNat = w.toNat / 2 ^ 25 % 2 ^ 7 := toNat_field w 25 7
  have hw : w.toNat < 2 ^ 32 := w.isLt
  omega

/-- The opcode is known from the word's low seven bits as a number. -/
theorem opcodeOf_eq_of_mod {w : Word} {op : Opcode} (h : w.toNat % 128 = op.toNat) : opcodeOf w = op :=
  BitVec.eq_of_toNat_eq ((toNat_opcodeOf w).trans h)

/-! ### The record of the shapes with two opcodes -/

theorem decodeUnit_i {w : Word} (h : opcodeOf w = 0x13 ∨ opcodeOf w = 0x03) :
    decodeUnit w = .i (opcodeOf w) (rdOf w) (funct3Of w) (rs1Of w) (immI w) := by
  obtain h | h := h
  · rw [decodeUnit_i_alu h, h]
  · rw [decodeUnit_i_load h, h]

theorem decodeUnit_u {w : Word} (h : opcodeOf w = 0x37 ∨ opcodeOf w = 0x17) :
    decodeUnit w = .u (opcodeOf w) (rdOf w) (immU w) := by
  obtain h | h := h
  · rw [decodeUnit_lui h, h]
  · rw [decodeUnit_auipc h, h]

/-! ### The immediates bit by bit -/

/-- Sign extension repeats the top bit: bit k is bit `min k (n - 1)` of the pattern (00_scope.md R12). -/
theorem getLsbD_sext_eq_min {n : Nat} (v : BitVec n) {k : Nat} (hk : k < 32) :
    (sext v).getLsbD k = v.getLsbD (min k (n - 1)) := by
  rw [getLsbD_sext v k hk]
  split_ifs with h
  · rw [Nat.min_eq_left (by omega)]
  · rw [Nat.min_eq_right (by omega), BitVec.msb_eq_getLsbD_last]

theorem getLsbD_field_of_lt (w : Word) {lo len k : Nat} (h : k < len) :
    (field w lo len).getLsbD k = w.getLsbD (lo + k) := by
  rw [getLsbD_field, decide_eq_true h, Bool.true_and]

/-- A bit of a concatenation that ends in a field of the word. -/
theorem getLsbD_append_field {m : Nat} (x : BitVec m) (w : Word) (lo len k : Nat) :
    (x ++ field w lo len).getLsbD k = if k < len then w.getLsbD (lo + k) else x.getLsbD (k - len) := by
  rw [BitVec.getLsbD_append]
  split_ifs with h
  · exact getLsbD_field_of_lt w h
  · rfl

theorem getLsbD_immI (w : Word) {k : Nat} (hk : k < 32) :
    (immI w).getLsbD k = w.getLsbD (if k < 11 then k + 20 else 31) := by
  rw [immI, getLsbD_sext_eq_min _ hk, getLsbD_field_of_lt w (by omega)]
  congr 1
  split_ifs <;> omega

theorem getLsbD_immS (w : Word) {k : Nat} (hk : k < 32) :
    (immS w).getLsbD k = w.getLsbD (if k < 5 then k + 7 else if k < 11 then k + 20 else 31) := by
  rw [immS, getLsbD_sext_eq_min _ hk, getLsbD_append_field,
    getLsbD_field_of_lt w (by omega), ← apply_ite w.getLsbD]
  congr 1
  split_ifs <;> omega

/-- Bit 0 of an immediate that ends in a 0 bit, as those of B and J do (30_encoding.md C1). -/
theorem getLsbD_zero_sext_append_zero {n : Nat} (v : BitVec n) :
    (sext (v ++ 0#1)).getLsbD 0 = false := by
  rw [getLsbD_sext_eq_min _ (by decide), BitVec.getLsbD_append]
  simp

/-- The other bits of such an immediate: those of the pattern above the 0, its top bit repeated. -/
theorem getLsbD_sext_append_zero {n : Nat} (v : BitVec n) {k : Nat} (hn : 1 ≤ n) (h1 : 1 ≤ k) (hk : k < 32) :
    (sext (v ++ 0#1)).getLsbD k = v.getLsbD (min (k - 1) (n - 1)) := by
  rw [getLsbD_sext_eq_min _ hk, BitVec.getLsbD_append, if_neg (by omega)]
  congr 1
  omega

theorem getLsbD_immB (w : Word) {k : Nat} (h1 : 1 ≤ k) (hk : k < 32) :
    (immB w).getLsbD k =
      w.getLsbD (if k < 5 then k + 7 else if k < 11 then k + 20 else if k = 11 then 7 else 31) := by
  rw [immB, getLsbD_sext_append_zero _ (by decide) h1 hk]
  simp only [getLsbD_append_field]
  rw [getLsbD_field_of_lt w (by omega)]
  simp only [← apply_ite w.getLsbD]
  congr 1
  split_ifs <;> omega

theorem getLsbD_immJ (w : Word) {k : Nat} (h1 : 1 ≤ k) (hk : k < 32) :
    (immJ w).getLsbD k =
      w.getLsbD (if k < 11 then k + 20 else if k = 11 then 20 else if k < 20 then k else 31) := by
  rw [immJ, getLsbD_sext_append_zero _ (by decide) h1 hk]
  simp only [getLsbD_append_field]
  rw [getLsbD_field_of_lt w (by omega)]
  simp only [← apply_ite w.getLsbD]
  congr 1
  split_ifs <;> omega

theorem getLsbD_immU (w : Word) {k : Nat} (hk : k < 32) :
    (immU w).getLsbD k = (decide (12 ≤ k) && w.getLsbD k) := by
  rw [immU, BitVec.getLsbD_append]
  by_cases h : k < 12
  · simp [h, show ¬ 12 ≤ k by omega]
  · rw [if_neg h, getLsbD_field_of_lt w (by omega), Nat.add_sub_cancel' (by omega)]
    simp [show 12 ≤ k by omega]

theorem immU_eq_and (w : Word) : immU w = w &&& 0xFFFFF000 := by
  apply BitVec.eq_of_getLsbD_eq
  intro k hk
  have hmask : ∀ k < 32, (0xFFFFF000 : Word).getLsbD k = decide (12 ≤ k) := by decide
  rw [getLsbD_immU w hk, BitVec.getLsbD_and, hmask k hk, Bool.and_comm]

end Sys2Proof

namespace Sys2Proof.Machine

/-! ### The obligations -/

/-- Settles O2: opcode 0x33 fixes the R record, whose fields are the word's own. -/
theorem rShapeRecordHoldsItsFields : Obligations.RShapeRecordHoldsItsFields := fun w h =>
  ⟨_, _, _, _, _, decodeUnit_r (opcodeOf_eq_of_mod h), toNat_rdOf w, toNat_funct3Of w, toNat_rs1Of w,
    toNat_rs2Of w, toNat_funct7Of w⟩

/-- Settles O3: the opcode fixes the shape, and the immediates are the layouts' bit by bit. -/
theorem iAndSShapeRecordsHoldTheirFields : Obligations.IAndSShapeRecordsHoldTheirFields := by
  refine ⟨fun w h => ?i, fun w h => ?s⟩
  case i =>
    exact ⟨_, _, _, _, _, decodeUnit_i (h.imp opcodeOf_eq_of_mod opcodeOf_eq_of_mod), toNat_opcodeOf w,
      toNat_rdOf w, toNat_funct3Of w, toNat_rs1Of w, fun _ => getLsbD_immI w⟩
  case s =>
    exact ⟨_, _, _, _, decodeUnit_s (opcodeOf_eq_of_mod h), toNat_funct3Of w, toNat_rs1Of w, toNat_rs2Of w,
      fun _ => getLsbD_immS w⟩

/-- Settles O4: the opcode fixes the shape; bit 0 of a B or J immediate is the 0 appended to it, and every
other bit is the layout's. -/
theorem bUAndJShapeRecordsHoldTheirFields : Obligations.BUAndJShapeRecordsHoldTheirFields := by
  refine ⟨fun w h => ?b, fun w h => ?u, fun w h => ?j⟩
  case b =>
    exact ⟨_, _, _, _, decodeUnit_b (opcodeOf_eq_of_mod h), toNat_funct3Of w, toNat_rs1Of w, toNat_rs2Of w,
      getLsbD_zero_sext_append_zero _, fun _ => getLsbD_immB w⟩
  case u =>
    exact ⟨_, _, _, decodeUnit_u (h.imp opcodeOf_eq_of_mod opcodeOf_eq_of_mod), toNat_opcodeOf w,
      toNat_rdOf w, immU_eq_and w, fun _ => getLsbD_immU w⟩
  case j =>
    exact ⟨_, _, decodeUnit_j (opcodeOf_eq_of_mod h), toNat_rdOf w, getLsbD_zero_sext_append_zero _,
      fun _ => getLsbD_immJ w⟩

/-- Settles O5: the decode unit branches on the opcode alone, and its last branch is taken exactly outside
the eight opcodes. -/
theorem shapeFollowsTheOpcodeAlone : Obligations.ShapeFollowsTheOpcodeAlone := by
  constructor
  · intro w w' h
    simp only [decodeUnit, h]
    split_ifs <;> trivial
  · intro w
    constructor
    · intro hout
      simp only [List.mem_cons, List.not_mem_nil, or_false, not_or] at hout
      obtain ⟨h33, h13, h03, h23, h63, h37, h17, h6F⟩ := hout
      exact decodeUnit_unsupported h33 h13 h03 h23 h63 h37 h17 h6F
    · intro hu hmem
      simp only [List.mem_cons, List.not_mem_nil, or_false] at hmem
      obtain h | h | h | h | h | h | h | h := hmem
      · cases (decodeUnit_r h).symm.trans hu
      · cases (decodeUnit_i_alu h).symm.trans hu
      · cases (decodeUnit_i_load h).symm.trans hu
      · cases (decodeUnit_s h).symm.trans hu
      · cases (decodeUnit_b h).symm.trans hu
      · cases (decodeUnit_lui h).symm.trans hu
      · cases (decodeUnit_auipc h).symm.trans hu
      · cases (decodeUnit_j h).symm.trans hu

end Sys2Proof.Machine
end

section
/-! Proofs for 40_register_alu.md: what the register-register instructions touch. -/

namespace Sys2Proof.Machine

/-- Writing a register is `RegisterWritten`, goes on at pc + 4 and keeps the Memory and the status: the
frame of every instruction that only writes a register. -/
theorem writeRegister_frame (rd : RegIdx) (v : Word) (s : State) :
    RegisterWritten rd v s (writeRegister rd v s) ∧ (writeRegister rd v s).pc = s.pc + 4 ∧
      MemoryKept s (writeRegister rd v s) ∧ (writeRegister rd v s).status = s.status :=
  ⟨registerWritten_of_retire _ s rd v rfl, writeRegister_pc rd v s,
    memoryKept_of_mem_eq (writeRegister_mem rd v s), writeRegister_status rd v s⟩

/-- What a register write leaves in `rd` depends on the value alone, for x0 too. -/
theorem readReg_writeRegister_self_eq (rd : RegIdx) (v : Word) (s s' : State) :
    (writeRegister rd v s).readReg rd = (writeRegister rd v s').readReg rd := by
  simp only [readReg_writeRegister, if_true]

/-- Each of the five rows of opcode 0x33 writes to rd an operation on x[rs1] and x[rs2], whichever row the
funct fields select (R140 to R145). -/
theorem exec_of_selectR {op : Opcode} {rd rs1 rs2 : RegIdx} {f3 : Funct3} {f7 : Funct7} {i : Instr}
    (h : selectR op rd f3 rs1 rs2 f7 = .instr i) :
    ∃ alu : Word → Word → Word, ∀ s,
      exec i s = .next (writeRegister rd (alu (s.readReg rs1) (s.readReg rs2)) s) := by
  unfold selectR at h
  split_ifs at h <;> cases h
  · exact ⟨(· + ·), fun _ => rfl⟩
  · exact ⟨(· - ·), fun _ => rfl⟩
  · exact ⟨(· &&& ·), fun _ => rfl⟩
  · exact ⟨(· ||| ·), fun _ => rfl⟩
  · exact ⟨(· ^^^ ·), fun _ => rfl⟩

/-- The same of a decoded word of opcode 0x33, with the operands its own fields name (R94). -/
theorem exec_of_decode_r {w : Word} {i : Instr} (hop : opcodeOf w = 0x33) (hd : decode w = .instr i) :
    ∃ alu : Word → Word → Word, ∀ s,
      exec i s = .next (writeRegister (rdOf w) (alu (s.readReg (rs1Of w)) (s.readReg (rs2Of w))) s) := by
  rw [decode, decodeUnit_r hop] at hd
  exact exec_of_selectR hd

/-- Settles O11: a decoded word of opcode 0x33 is one register write, of an operation on the two registers
it reads. -/
theorem registerAluTouchesOnlyItsRegisters : Obligations.RegisterAluTouchesOnlyItsRegisters := by
  intro w i hop hd
  obtain ⟨alu, hexec⟩ := exec_of_decode_r hop hd
  refine ⟨fun s => ?completes, fun s s' t t' h1 h2 ht ht' => ?readsOnlyItsOperands⟩
  case completes =>
    obtain ⟨hreg, hframe⟩ :=
      writeRegister_frame (rdOf w) (alu (s.readReg (rs1Of w)) (s.readReg (rs2Of w))) s
    exact ⟨_, hexec s, ⟨_, hreg⟩, hframe⟩
  case readsOnlyItsOperands =>
    cases (hexec s).symm.trans ht
    cases (hexec s').symm.trans ht'
    rw [h1, h2]
    exact readReg_writeRegister_self_eq (rdOf w) _ s s'

end Sys2Proof.Machine
end

section
/-! Proofs for 41_immediate_alu.md: the selection by funct3 and the two comparisons. -/

namespace Sys2Proof

/-! ### Words known by their masked bits -/

/-- A mask that is all ones over a field does not change the field. -/
theorem field_and_of_allOnes {m : Word} {lo len : Nat} (h : field m lo len = BitVec.allOnes len) (w : Word) :
    field (w &&& m) lo len = field w lo len := by
  rw [field] at h
  rw [field, BitVec.extractLsb'_and, h, BitVec.and_allOnes, field]

/-- The mask 0x0000707F shows the opcode and funct3, so a word's masked bits fix them (R104). -/
theorem opcodeOf_and_funct3Of_of_masked {w m : Word} (h : w &&& 0x0000707F = m) :
    opcodeOf w = opcodeOf m ∧ funct3Of w = funct3Of m := by
  subst h
  exact ⟨(field_and_of_allOnes (by decide) w).symm, (field_and_of_allOnes (by decide) w).symm⟩

/-! ### The selection by funct3 -/

theorem decode_i_alu {w : Word} (hop : opcodeOf w = 0x13) :
    decode w = selectImmediateAlu 0x13 (rdOf w) (funct3Of w) (rs1Of w) (immI w) := by
  rw [decode, decodeUnit_i_alu hop]
  rfl

theorem decode_addi {w : Word} (hop : opcodeOf w = 0x13) (h3 : funct3Of w = 0x0) :
    decode w = .instr (.addi (rdOf w) (rs1Of w) (immI w)) := by
  rw [decode_i_alu hop, h3]
  rfl

theorem decode_slti {w : Word} (hop : opcodeOf w = 0x13) (h3 : funct3Of w = 0x2) :
    decode w = .instr (.slti (rdOf w) (rs1Of w) (immI w)) := by
  rw [decode_i_alu hop, h3]
  rfl

theorem decode_sltiu {w : Word} (hop : opcodeOf w = 0x13) (h3 : funct3Of w = 0x3) :
    decode w = .instr (.sltiu (rdOf w) (rs1Of w) (immI w)) := by
  rw [decode_i_alu hop, h3]
  rfl

theorem decode_i_alu_unsupported {w : Word} (hop : opcodeOf w = 0x13)
    (h3 : funct3Of w ∉ ([0x0, 0x2, 0x3] : List Funct3)) : decode w = .unsupportedInstruction 0x13 := by
  simp only [List.mem_cons, List.not_mem_nil, or_false, not_or] at h3
  obtain ⟨h0, h2, h3⟩ := h3
  rw [decode_i_alu hop, selectImmediateAlu, if_neg h0, if_neg h2, if_neg h3]

end Sys2Proof

namespace Sys2Proof.Machine

/-! ### What the selected instruction does -/

/-- Each of the three rows of opcode 0x13 writes to rd a function of x[rs1], whichever row funct3 selects;
the immediate is fixed with the row (R161 to R163). -/
theorem exec_of_selectImmediateAlu {op : Opcode} {rd rs1 : RegIdx} {f3 : Funct3} {imm : Word} {i : Instr}
    (h : selectImmediateAlu op rd f3 rs1 imm = .instr i) :
    ∃ alu : Word → Word, ∀ s, exec i s = .next (writeRegister rd (alu (s.readReg rs1)) s) := by
  unfold selectImmediateAlu at h
  split_ifs at h <;> cases h
  · exact ⟨(· + imm), fun _ => rfl⟩
  · exact ⟨fun x => truthWord (lessSigned x imm), fun _ => rfl⟩
  · exact ⟨fun x => truthWord (lessUnsigned x imm), fun _ => rfl⟩

/-- The same of a decoded word of opcode 0x13, with the operands its own fields name (R95). -/
theorem exec_of_decode_i_alu {w : Word} {i : Instr} (hop : opcodeOf w = 0x13) (hd : decode w = .instr i) :
    ∃ alu : Word → Word, ∀ s,
      exec i s = .next (writeRegister (rdOf w) (alu (s.readReg (rs1Of w))) s) :=
  exec_of_selectImmediateAlu ((decode_i_alu hop).symm.trans hd)

/-! ### The comparisons' 0 or 1 -/

theorem truthWord_lessSigned (a b : Word) : truthWord (lessSigned a b) = if s32 a < s32 b then 1 else 0 := by
  simp only [truthWord, lessSigned, decide_eq_true_eq]

theorem truthWord_lessUnsigned (a b : Word) :
    truthWord (lessUnsigned a b) = if u32 a < u32 b then 1 else 0 := by
  simp only [truthWord, lessUnsigned, decide_eq_true_eq]

/-! ### The obligations -/

/-- Settles O14: funct3 selects the row, and whatever it selects is one register write of a function of
x[rs1]. -/
theorem immediateAluSelectsAndTouchesOnlyItsRegisters :
    Obligations.ImmediateAluSelectsAndTouchesOnlyItsRegisters := by
  intro w hop
  refine ⟨decode_addi hop, decode_slti hop, decode_sltiu hop, decode_i_alu_unsupported hop,
    fun i s hd => ?completes, fun i s s' t t' hd h1 ht ht' => ?readsOnlyRs1⟩
  case completes =>
    obtain ⟨alu, hexec⟩ := exec_of_decode_i_alu hop hd
    obtain ⟨hreg, hframe⟩ := writeRegister_frame (rdOf w) (alu (s.readReg (rs1Of w))) s
    exact ⟨_, hexec s, ⟨_, hreg⟩, hframe⟩
  case readsOnlyRs1 =>
    obtain ⟨alu, hexec⟩ := exec_of_decode_i_alu hop hd
    cases (hexec s).symm.trans ht
    cases (hexec s').symm.trans ht'
    rw [h1]
    exact readReg_writeRegister_self_eq (rdOf w) _ s s'

/-- Settles O16: the masked bits fix opcode and funct3, and the value written is the signed comparison's
truth word. -/
theorem sltiComparesSigned : Obligations.SltiComparesSigned := by
  refine ⟨fun w hmask => ?encoding, fun rd rs1 imm s => ?compares⟩
  case encoding =>
    obtain ⟨hop, h3⟩ := opcodeOf_and_funct3Of_of_masked hmask
    exact decode_slti hop h3
  case compares =>
    obtain ⟨hreg, hframe⟩ := writeRegister_frame rd (truthWord (lessSigned (s.readReg rs1) imm)) s
    exact ⟨_, _, rfl, hreg, fun hlt => (truthWord_lessSigned _ _).trans (if_pos hlt),
      fun hge => (truthWord_lessSigned _ _).trans (if_neg hge.not_gt), hframe⟩

/-- Settles O17: the masked bits fix opcode and funct3, and the value written is the unsigned comparison's
truth word. -/
theorem sltiuComparesUnsigned : Obligations.SltiuComparesUnsigned := by
  refine ⟨fun w hmask => ?encoding, fun rd rs1 imm s => ?compares⟩
  case encoding =>
    obtain ⟨hop, h3⟩ := opcodeOf_and_funct3Of_of_masked hmask
    exact decode_sltiu hop h3
  case compares =>
    obtain ⟨hreg, hframe⟩ := writeRegister_frame rd (truthWord (lessUnsigned (s.readReg rs1) imm)) s
    exact ⟨_, _, rfl, hreg, fun hlt => (truthWord_lessUnsigned _ _).trans (if_pos hlt),
      fun hge => (truthWord_lessUnsigned _ _).trans (if_neg hge.not_gt), hframe⟩

end Sys2Proof.Machine
end

section
/-! Proofs for 44_branch.md: the selection by funct3. -/

namespace Sys2Proof

/-- A word of opcode 0x63 is what its funct3 selects, with the operands its own fields name (R97, R200). -/
theorem decode_b {w : Word} {f3 : Funct3} (hop : opcodeOf w = 0x63) (h3 : funct3Of w = f3) :
    decode w = selectB 0x63 f3 (rs1Of w) (rs2Of w) (immB w) := by
  rw [decode, decodeUnit_b hop, h3]
  rfl

/-- The two funct3 values that no branch has select nothing (R200). -/
theorem selectB_unsupported {f3 : Funct3} (h : f3 = 0x2 ∨ f3 = 0x3) (op : Opcode) (rs1 rs2 : RegIdx)
    (imm : Word) : selectB op f3 rs1 rs2 imm = .unsupportedInstruction op := by
  obtain rfl | rfl := h
  · rfl
  · rfl

end Sys2Proof

namespace Sys2Proof.Machine

/-- Settles O10: the decoded word is the row of `selectB` at its funct3, and the rows are read off one by
one. -/
theorem funct3SelectsTheBranch : Obligations.Funct3SelectsTheBranch := by
  intro w hop
  have hnone (h3 : funct3Of w = 0x2 ∨ funct3Of w = 0x3) : decode w = .unsupportedInstruction 0x63 :=
    (decode_b hop rfl).trans (selectB_unsupported h3 ..)
  exact ⟨decode_b hop, decode_b hop, decode_b hop, decode_b hop, decode_b hop, decode_b hop, hnone⟩

end Sys2Proof.Machine
end

section
/-! Proofs for 45_upper_immediate.md: the encoding of LUI and the register write it is. -/

namespace Sys2Proof

/-- The mask 0x0000007F shows the opcode, so a word's masked bits fix it (R104). -/
theorem opcodeOf_of_masked {w m : Word} (h : w &&& 0x0000007F = m) : opcodeOf w = opcodeOf m := by
  subst h
  exact (field_and_of_allOnes (by decide) w).symm

theorem decode_lui {w : Word} (hop : opcodeOf w = 0x37) : decode w = .instr (.lui (rdOf w) (immU w)) := by
  rw [decode, decodeUnit_lui hop]
  rfl

/-- The low 12 bits of a U immediate are the zeros appended to it (30_encoding.md R98). -/
theorem toNat_immU_mod (w : Word) : u32 (immU w) % 4096 = 0 := by
  have happend : u32 (immU w) = 2 ^ 12 * (field w 12 20).toNat + 0 := toNat_append_eq_add _ 0#12
  omega

end Sys2Proof

namespace Sys2Proof.Machine

/-- Settles O18: the masked bits fix the opcode, and LUI is one register write of its immediate. -/
theorem luiWritesTheUpperImmediate : Obligations.LuiWritesTheUpperImmediate := by
  refine ⟨fun w hmask => ?encoding, fun rd imm s => ?writes⟩
  case encoding => exact ⟨decode_lui (opcodeOf_of_masked hmask), toNat_immU_mod w⟩
  case writes => exact ⟨_, rfl, writeRegister_frame rd imm s⟩

end Sys2Proof.Machine
end

section
/-! Proofs for 30_encoding.md: encoding and decoding are inverse to each other, and the opcode map. -/

namespace Sys2Proof

/-! ### Fields side by side -/

/-- The whole word as a field. -/
theorem field_zero_full (w : Word) : field w 0 32 = w := BitVec.extractLsb'_eq_self

/-- Two neighbouring fields are one field. -/
theorem field_append_field (w : Word) {hi lo m n : Nat} (h : hi = lo + n) :
    field w hi m ++ field w lo n = field w lo (m + n) :=
  BitVec.extractLsb'_append_extractLsb'_eq_extractLsb' h

/-- A field of an immediate is the field of the word that the immediate's layout `place` puts there. -/
theorem field_eq_of_layout {imm w : Word} {place : Nat → Nat} {lo lo' len : Nat}
    (hbits : ∀ k, lo ≤ k → k < lo + len → imm.getLsbD k = w.getLsbD (place k))
    (hplace : ∀ k < len, place (lo + k) = lo' + k) : field imm lo len = field w lo' len := by
  apply BitVec.eq_of_getLsbD_eq
  intro k hk
  rw [getLsbD_field_of_lt imm hk, getLsbD_field_of_lt w hk, hbits _ (by omega) (by omega), hplace k hk]

/-! ### Immediates in range -/

/-- Cutting a word to n bits and extending the sign gives it back when it is a signed n-bit number. -/
theorem sext_field_zero_eq_self {n : Nat} (hn : n ≤ 32) {imm : Word} (hlo : -2 ^ n ≤ 2 * s32 imm)
    (hhi : 2 * s32 imm < 2 ^ n) : sext (field imm 0 n) = imm := by
  apply BitVec.eq_of_toInt_eq
  have hcut : field imm 0 n = imm.signExtend n := by
    rw [BitVec.signExtend_eq_setWidth_of_le imm hn, BitVec.setWidth_eq_extractLsb' hn, field]
  have hpow : ((2 ^ n : Nat) : Int) = 2 ^ n := Nat.cast_pow 2 n
  rw [sext, BitVec.toInt_signExtend_of_le hn, hcut, BitVec.toInt_signExtend, Nat.min_eq_left hn]
  exact Int.bmod_eq_of_le (n := s32 imm) (by omega) (by omega)

/-- A sign-extended n-bit pattern is a signed n-bit number. -/
theorem s32_sext {n : Nat} (hn : n ≤ 32) (v : BitVec n) : s32 (sext v) = v.toInt :=
  BitVec.toInt_signExtend_of_le hn

/-- A word is even exactly when its lowest bit is 0. -/
theorem u32_mod_two_eq_zero_iff (v : Word) : u32 v % 2 = 0 ↔ v.getLsbD 0 = false := by
  rw [BitVec.getLsbD, Nat.testBit_zero]
  simp

theorem s32_mod_two_eq_zero_iff (v : Word) : s32 v % 2 = 0 ↔ v.getLsbD 0 = false := by
  have hcast : s32 v = _ := BitVec.toInt_eq_toNat_bmod v
  have hmod : s32 v % 2 = (u32 v : Int) % 2 := by
    rw [hcast, ← Int.emod_emod_of_dvd _ (by decide : (2 : Int) ∣ (2 ^ 32 : Nat)), Int.bmod_emod,
      Int.emod_emod_of_dvd _ (by decide)]
  rw [← u32_mod_two_eq_zero_iff]
  omega

/-- The low bit of an even word is the 0 that B and J immediates end in. -/
theorem field_zero_one_of_even {imm : Word} (h : s32 imm % 2 = 0) : field imm 0 1 = 0#1 := by
  apply BitVec.eq_of_getLsbD_eq
  intro k hk
  obtain rfl : k = 0 := by omega
  rw [getLsbD_field_of_lt imm hk, (s32_mod_two_eq_zero_iff imm).1 h, BitVec.getLsbD_zero]

/-! ### Immediates read back from a packed word -/

theorem sext_field_of_immFits12 {imm : Word} (h : immFits12 imm = true) : sext (field imm 0 12) = imm := by
  obtain ⟨hlo, hhi⟩ := of_decide_eq_true h
  exact sext_field_zero_eq_self (by decide) (by omega) (by omega)

theorem immI_packI_of_immFits12 {imm : Word} (h : immFits12 imm = true) (op : Opcode) (rd : RegIdx)
    (f3 : Funct3) (rs1 : RegIdx) : immI (packI op rd f3 rs1 imm) = imm :=
  (immI_packI op rd f3 rs1 imm).trans (sext_field_of_immFits12 h)

theorem immS_packS_of_immFits12 {imm : Word} (h : immFits12 imm = true) (op : Opcode) (f3 : Funct3)
    (rs1 rs2 : RegIdx) : immS (packS op f3 rs1 rs2 imm) = imm := by
  rw [immS_packS, field_append_field imm (by decide)]
  exact sext_field_of_immFits12 h

theorem immB_packB_of_immFits13 {imm : Word} (h : immFits13 imm = true) (op : Opcode) (f3 : Funct3)
    (rs1 rs2 : RegIdx) : immB (packB op f3 rs1 rs2 imm) = imm := by
  obtain ⟨hlo, hhi, heven⟩ := of_decide_eq_true h
  rw [immB_packB, ← field_zero_one_of_even heven]
  repeat rw [field_append_field imm (by decide)]
  exact sext_field_zero_eq_self (by decide) (by omega) (by omega)

theorem immJ_packJ_of_immFits21 {imm : Word} (h : immFits21 imm = true) (op : Opcode) (rd : RegIdx) :
    immJ (packJ op rd imm) = imm := by
  obtain ⟨hlo, hhi, heven⟩ := of_decide_eq_true h
  rw [immJ_packJ, ← field_zero_one_of_even heven]
  repeat rw [field_append_field imm (by decide)]
  exact sext_field_zero_eq_self (by decide) (by omega) (by omega)

theorem immU_packU_of_immUpper {imm : Word} (h : immUpper imm = true) (op : Opcode) (rd : RegIdx) :
    immU (packU op rd imm) = imm := by
  have hlow : u32 imm % 4096 = 0 := of_decide_eq_true h
  have hlt : u32 imm < 2 ^ 32 := imm.isLt
  have hself : 2 ^ 12 * (u32 imm / 2 ^ 12 % 2 ^ 20) + 0 = u32 imm := by omega
  apply BitVec.eq_of_toNat_eq
  rw [immU_packU, toNat_append_eq_add, toNat_field, BitVec.toNat_zero, hself]

/-! ### Encoding and decoding records -/

/-- The decode unit reads back the record a word was packed from (30_encoding.md R105). -/
theorem decodeUnit_encodeRecord {r : Record} (h : r.wf = true) : decodeUnit (encodeRecord r) = r := by
  cases r with
  | r op rd f3 rs1 rs2 f7 =>
    obtain rfl : op = 0x33 := by simpa [Record.wf] using h
    obtain ⟨hop, hrd, hf3, hrs1, hrs2, hf7⟩ := packR_fields 0x33 rd f3 rs1 rs2 f7
    rw [encodeRecord, decodeUnit_r hop, hrd, hf3, hrs1, hrs2, hf7]
  | i op rd f3 rs1 imm =>
    obtain ⟨hops, himm⟩ : (op = 0x13 ∨ op = 0x03) ∧ immFits12 imm = true := by simpa [Record.wf] using h
    obtain ⟨hop, hrd, hf3, hrs1, -⟩ := packI_fields op rd f3 rs1 imm
    rw [encodeRecord, decodeUnit_i (by rwa [hop]), hop, hrd, hf3, hrs1, immI_packI_of_immFits12 himm]
  | s op f3 rs1 rs2 imm =>
    obtain ⟨rfl, himm⟩ : op = 0x23 ∧ immFits12 imm = true := by simpa [Record.wf] using h
    obtain ⟨hop, -, hf3, hrs1, hrs2, -⟩ := packS_fields 0x23 f3 rs1 rs2 imm
    rw [encodeRecord, decodeUnit_s hop, hf3, hrs1, hrs2, immS_packS_of_immFits12 himm]
  | b op f3 rs1 rs2 imm =>
    obtain ⟨rfl, himm⟩ : op = 0x63 ∧ immFits13 imm = true := by simpa [Record.wf] using h
    obtain ⟨hop, -, -, hf3, hrs1, hrs2, -⟩ := packB_fields 0x63 f3 rs1 rs2 imm
    rw [encodeRecord, decodeUnit_b hop, hf3, hrs1, hrs2, immB_packB_of_immFits13 himm]
  | u op rd imm =>
    obtain ⟨hops, himm⟩ : (op = 0x37 ∨ op = 0x17) ∧ immUpper imm = true := by simpa [Record.wf] using h
    obtain ⟨hop, hrd, -⟩ := packU_fields op rd imm
    rw [encodeRecord, decodeUnit_u (by rwa [hop]), hop, hrd, immU_packU_of_immUpper himm]
  | j op rd imm =>
    obtain ⟨rfl, himm⟩ : op = 0x6F ∧ immFits21 imm = true := by simpa [Record.wf] using h
    obtain ⟨hop, hrd, -⟩ := packJ_fields 0x6F rd imm
    rw [encodeRecord, decodeUnit_j hop, hrd, immJ_packJ_of_immFits21 himm]
  | unsupported op => simp [Record.wf] at h

/-! ### The ranges of decoded immediates -/

theorem immFits12_sext (v : BitVec 12) : immFits12 (sext v) = true := by
  have hlo := v.le_toInt
  have hhi := v.toInt_lt
  rw [immFits12, s32_sext (by decide), decide_eq_true_eq]
  omega

/-- An immediate that ends in a 0 bit is even. -/
theorem s32_sext_append_zero_mod_two {n : Nat} (v : BitVec n) : s32 (sext (v ++ 0#1)) % 2 = 0 :=
  (s32_mod_two_eq_zero_iff _).2 (getLsbD_zero_sext_append_zero v)

theorem immFits13_sext_append_zero (v : BitVec 12) : immFits13 (sext (v ++ 0#1)) = true := by
  have heven := s32_sext_append_zero_mod_two v
  have hlo := (v ++ 0#1).le_toInt
  have hhi := (v ++ 0#1).toInt_lt
  rw [← s32_sext (by decide)] at hlo hhi
  rw [immFits13, decide_eq_true_eq]
  omega

theorem immFits21_sext_append_zero (v : BitVec 20) : immFits21 (sext (v ++ 0#1)) = true := by
  have heven := s32_sext_append_zero_mod_two v
  have hlo := (v ++ 0#1).le_toInt
  have hhi := (v ++ 0#1).toInt_lt
  rw [← s32_sext (by decide)] at hlo hhi
  rw [immFits21, decide_eq_true_eq]
  omega

/-- The record of a supported word is well-formed: R103's ranges hold of every decoded immediate. -/
theorem wf_decodeUnit_or_unsupported (w : Word) :
    (decodeUnit w).wf = true ∨ decodeUnit w = .unsupported (opcodeOf w) := by
  unfold decodeUnit
  split_ifs with h33 hi h23 h63 hu h6F
  · exact .inl (by simp [Record.wf, h33])
  · exact .inl (by simpa [Record.wf, immI, immFits12_sext] using hi)
  · exact .inl (by simp [Record.wf, h23, immS, immFits12_sext])
  · exact .inl (by simp [Record.wf, h63, immB, immFits13_sext_append_zero])
  · exact .inl (by simpa [Record.wf, immUpper, toNat_immU_mod] using hu)
  · exact .inl (by simp [Record.wf, h6F, immJ, immFits21_sext_append_zero])
  · exact .inr rfl

/-! ### Packing the fields of a word -/

theorem packR_fields_of_word (w : Word) :
    packR (opcodeOf w) (rdOf w) (funct3Of w) (rs1Of w) (rs2Of w) (funct7Of w) = w := by
  rw [packR, opcodeOf, rdOf, funct3Of, rs1Of, rs2Of, funct7Of]
  repeat rw [field_append_field w (by decide)]
  exact field_zero_full w

theorem packI_fields_of_word (w : Word) :
    packI (opcodeOf w) (rdOf w) (funct3Of w) (rs1Of w) (immI w) = w := by
  have himm : field (immI w) 0 12 = field w 20 12 :=
    field_eq_of_layout (fun k _ hk => getLsbD_immI w (by omega)) (by decide)
  rw [packI, himm, opcodeOf, rdOf, funct3Of, rs1Of]
  repeat rw [field_append_field w (by decide)]
  exact field_zero_full w

theorem packS_fields_of_word (w : Word) :
    packS (opcodeOf w) (funct3Of w) (rs1Of w) (rs2Of w) (immS w) = w := by
  have h5 : field (immS w) 5 7 = field w 25 7 :=
    field_eq_of_layout (fun k _ _ => getLsbD_immS w (by omega)) (by decide)
  have h0 : field (immS w) 0 5 = field w 7 5 :=
    field_eq_of_layout (fun k _ _ => getLsbD_immS w (by omega)) (by decide)
  rw [packS, h5, h0, opcodeOf, funct3Of, rs1Of, rs2Of]
  repeat rw [field_append_field w (by decide)]
  exact field_zero_full w

theorem packB_fields_of_word (w : Word) :
    packB (opcodeOf w) (funct3Of w) (rs1Of w) (rs2Of w) (immB w) = w := by
  have h12 : field (immB w) 12 1 = field w 31 1 :=
    field_eq_of_layout (fun k _ _ => getLsbD_immB w (by omega) (by omega)) (by decide)
  have h5 : field (immB w) 5 6 = field w 25 6 :=
    field_eq_of_layout (fun k _ _ => getLsbD_immB w (by omega) (by omega)) (by decide)
  have h1 : field (immB w) 1 4 = field w 8 4 :=
    field_eq_of_layout (fun k _ _ => getLsbD_immB w (by omega) (by omega)) (by decide)
  have h11 : field (immB w) 11 1 = field w 7 1 :=
    field_eq_of_layout (fun k _ _ => getLsbD_immB w (by omega) (by omega)) (by decide)
  rw [packB, h12, h5, h1, h11, opcodeOf, funct3Of, rs1Of, rs2Of]
  repeat rw [field_append_field w (by decide)]
  exact field_zero_full w

theorem packU_fields_of_word (w : Word) : packU (opcodeOf w) (rdOf w) (immU w) = w := by
  have himm : field (immU w) 12 20 = field w 12 20 := by
    rw [immU, field, extractLsb'_append_high _ _ (by decide), BitVec.extractLsb'_eq_self]
  rw [packU, himm, opcodeOf, rdOf]
  repeat rw [field_append_field w (by decide)]
  exact field_zero_full w

theorem packJ_fields_of_word (w : Word) : packJ (opcodeOf w) (rdOf w) (immJ w) = w := by
  have h20 : field (immJ w) 20 1 = field w 31 1 :=
    field_eq_of_layout (fun k _ _ => getLsbD_immJ w (by omega) (by omega)) (by decide)
  have h1 : field (immJ w) 1 10 = field w 21 10 :=
    field_eq_of_layout (fun k _ _ => getLsbD_immJ w (by omega) (by omega)) (by decide)
  have h11 : field (immJ w) 11 1 = field w 20 1 :=
    field_eq_of_layout (fun k _ _ => getLsbD_immJ w (by omega) (by omega)) (by decide)
  have h12 : field (immJ w) 12 8 = field w 12 8 :=
    field_eq_of_layout (fun k _ _ => getLsbD_immJ w (by omega) (by omega)) (by decide)
  rw [packJ, h20, h1, h11, h12, opcodeOf, rdOf]
  repeat rw [field_append_field w (by decide)]
  exact field_zero_full w

/-- A word of a supported opcode is the encoding of its own record: its shape leaves no bit out
(30_encoding.md R110). -/
theorem encodeRecord_decodeUnit {w : Word} (h : (decodeUnit w).wf = true) :
    encodeRecord (decodeUnit w) = w := by
  unfold decodeUnit at h ⊢
  split_ifs at h ⊢
  · exact packR_fields_of_word w
  · exact packI_fields_of_word w
  · exact packS_fields_of_word w
  · exact packB_fields_of_word w
  · exact packU_fields_of_word w
  · exact packJ_fields_of_word w
  · simp [Record.wf] at h

/-! ### Records and instructions -/

/-- An instruction is well-formed when its record is. -/
theorem wf_record (i : Instr) : i.record.wf = i.wf := by
  cases i with
  | add | sub | and | or | xor => rfl
  | _ => simp [Instr.record, Record.wf, Instr.wf]

/-- Each row's selectors select that row (30_encoding.md R104). -/
theorem select_record (i : Instr) : select i.record = .instr i := by
  cases i with
  | _ => rfl

/-- A well-formed record that selects an instruction is that instruction's record: the funct fields selected
on are the row's, and no field is left out. -/
theorem record_of_select {r : Record} {i : Instr} (hwf : r.wf = true) (h : select r = .instr i) :
    i.record = r := by
  cases r with
  | r op rd f3 rs1 rs2 f7 =>
    obtain rfl : op = 0x33 := by simpa [Record.wf] using hwf
    simp only [select, selectR] at h
    split_ifs at h with hrow hrow hrow hrow hrow <;> cases h
    all_goals
      obtain ⟨rfl, rfl⟩ := hrow
      rfl
  | i op rd f3 rs1 imm =>
    obtain ⟨rfl | rfl, -⟩ : (op = 0x13 ∨ op = 0x03) ∧ immFits12 imm = true := by simpa [Record.wf] using hwf
    · change selectImmediateAlu 0x13 rd f3 rs1 imm = _ at h
      unfold selectImmediateAlu at h
      split_ifs at h with hrow hrow hrow <;> cases h
      all_goals
        obtain rfl := hrow
        rfl
    · change selectLoad 0x03 rd f3 rs1 imm = _ at h
      unfold selectLoad at h
      split_ifs at h with hrow
      cases h
      obtain rfl := hrow
      rfl
  | s op f3 rs1 rs2 imm =>
    obtain ⟨rfl, -⟩ : op = 0x23 ∧ immFits12 imm = true := by simpa [Record.wf] using hwf
    simp only [select, selectS] at h
    split_ifs at h with hrow
    cases h
    obtain rfl := hrow
    rfl
  | b op f3 rs1 rs2 imm =>
    obtain ⟨rfl, -⟩ : op = 0x63 ∧ immFits13 imm = true := by simpa [Record.wf] using hwf
    simp only [select, selectB] at h
    split_ifs at h with hrow hrow hrow hrow hrow hrow <;> cases h
    all_goals
      obtain rfl := hrow
      rfl
  | u op rd imm =>
    obtain ⟨rfl | rfl, -⟩ : (op = 0x37 ∨ op = 0x17) ∧ immUpper imm = true := by simpa [Record.wf] using hwf
    · cases h
      rfl
    · cases h
      rfl
  | j op rd imm =>
    obtain ⟨rfl, -⟩ : op = 0x6F ∧ immFits21 imm = true := by simpa [Record.wf] using hwf
    cases h
    rfl
  | unsupported op => cases h

/-- A word that decodes to an instruction has that instruction's record, which is well-formed. -/
theorem decodeUnit_of_decode {w : Word} {i : Instr} (h : decode w = .instr i) :
    decodeUnit w = i.record ∧ i.record.wf = true := by
  obtain hwf | hun := wf_decodeUnit_or_unsupported w
  · have hrec : i.record = decodeUnit w := record_of_select hwf h
    exact ⟨hrec.symm, hrec ▸ hwf⟩
  · rw [decode, hun] at h
    cases h

/-- A word that decodes to an instruction is the instruction's encoding. -/
theorem encode_of_decode {w : Word} {i : Instr} (h : decode w = .instr i) : encode i = w := by
  obtain ⟨hrec, hwf⟩ := decodeUnit_of_decode h
  rw [encode, ← hrec]
  exact encodeRecord_decodeUnit (hrec ▸ hwf)

/-! ### The opcode map -/

/-- The word of any instruction meets its row of the opcode table (30_encoding.md R104): the family of
`Laws.EncodesToItsRow` as one statement. -/
theorem encode_and_mask (i : Instr) : encode i &&& i.mask = i.matchWord := by
  cases i with
  | add => exact Laws.EncodesToItsRow.add ..
  | sub => exact Laws.EncodesToItsRow.sub ..
  | and => exact Laws.EncodesToItsRow.and ..
  | or => exact Laws.EncodesToItsRow.or ..
  | xor => exact Laws.EncodesToItsRow.xor ..
  | addi => exact Laws.EncodesToItsRow.addi ..
  | slti => exact Laws.EncodesToItsRow.slti ..
  | sltiu => exact Laws.EncodesToItsRow.sltiu ..
  | lw => exact Laws.EncodesToItsRow.lw ..
  | sw => exact Laws.EncodesToItsRow.sw ..
  | beq => exact Laws.EncodesToItsRow.beq ..
  | bne => exact Laws.EncodesToItsRow.bne ..
  | blt => exact Laws.EncodesToItsRow.blt ..
  | bge => exact Laws.EncodesToItsRow.bge ..
  | bltu => exact Laws.EncodesToItsRow.bltu ..
  | bgeu => exact Laws.EncodesToItsRow.bgeu ..
  | lui => exact Laws.EncodesToItsRow.lui ..
  | auipc => exact Laws.EncodesToItsRow.auipc ..
  | jal => exact Laws.EncodesToItsRow.jal ..

/-- The mask 0xFE00707F shows the opcode, funct3 and funct7. -/
theorem selectors_of_masked_funct7 {w m : Word} (h : w &&& 0xFE00707F = m) :
    opcodeOf w = opcodeOf m ∧ funct3Of w = funct3Of m ∧ funct7Of w = funct7Of m := by
  subst h
  exact ⟨(field_and_of_allOnes (by decide) w).symm, (field_and_of_allOnes (by decide) w).symm,
    (field_and_of_allOnes (by decide) w).symm⟩

theorem decode_r {w : Word} {f3 : Funct3} {f7 : Funct7} (hop : opcodeOf w = 0x33) (h3 : funct3Of w = f3)
    (h7 : funct7Of w = f7) : decode w = selectR 0x33 (rdOf w) f3 (rs1Of w) (rs2Of w) f7 := by
  rw [decode, decodeUnit_r hop, h3, h7]
  rfl

theorem decode_load {w : Word} (hop : opcodeOf w = 0x03) :
    decode w = selectLoad 0x03 (rdOf w) (funct3Of w) (rs1Of w) (immI w) := by
  rw [decode, decodeUnit_i_load hop]
  rfl

theorem decode_s {w : Word} (hop : opcodeOf w = 0x23) :
    decode w = selectS 0x23 (funct3Of w) (rs1Of w) (rs2Of w) (immS w) := by
  rw [decode, decodeUnit_s hop]
  rfl

theorem decode_lw {w : Word} (hop : opcodeOf w = 0x03) (h3 : funct3Of w = 0x2) :
    decode w = .instr (.lw (rdOf w) (rs1Of w) (immI w)) := by
  rw [decode_load hop, h3]
  rfl

theorem decode_sw {w : Word} (hop : opcodeOf w = 0x23) (h3 : funct3Of w = 0x2) :
    decode w = .instr (.sw (rs1Of w) (rs2Of w) (immS w)) := by
  rw [decode_s hop, h3]
  rfl

theorem decode_auipc {w : Word} (hop : opcodeOf w = 0x17) : decode w = .instr (.auipc (rdOf w) (immU w)) := by
  rw [decode, decodeUnit_auipc hop]
  rfl

theorem decode_jal {w : Word} (hop : opcodeOf w = 0x6F) : decode w = .instr (.jal (rdOf w) (immJ w)) := by
  rw [decode, decodeUnit_j hop]
  rfl

/-- A word that meets a row's match under its mask decodes to an instruction of that row, with the word's own
operands (30_encoding.md R104). -/
theorem exists_decode_of_masked {w : Word} {i : Instr} (h : w &&& i.mask = i.matchWord) :
    ∃ j, decode w = .instr j ∧ j.mask = i.mask ∧ j.matchWord = i.matchWord := by
  cases i with (dsimp only [Instr.mask, Instr.matchWord] at h)
  | add | sub | and | or | xor =>
    obtain ⟨hop, h3, h7⟩ := selectors_of_masked_funct7 h
    exact ⟨_, decode_r hop h3 h7, rfl, rfl⟩
  | beq | bne | blt | bge | bltu | bgeu =>
    obtain ⟨hop, h3⟩ := opcodeOf_and_funct3Of_of_masked h
    exact ⟨_, decode_b hop h3, rfl, rfl⟩
  | addi =>
    obtain ⟨hop, h3⟩ := opcodeOf_and_funct3Of_of_masked h
    exact ⟨_, decode_addi hop h3, rfl, rfl⟩
  | slti =>
    obtain ⟨hop, h3⟩ := opcodeOf_and_funct3Of_of_masked h
    exact ⟨_, decode_slti hop h3, rfl, rfl⟩
  | sltiu =>
    obtain ⟨hop, h3⟩ := opcodeOf_and_funct3Of_of_masked h
    exact ⟨_, decode_sltiu hop h3, rfl, rfl⟩
  | lw =>
    obtain ⟨hop, h3⟩ := opcodeOf_and_funct3Of_of_masked h
    exact ⟨_, decode_lw hop h3, rfl, rfl⟩
  | sw =>
    obtain ⟨hop, h3⟩ := opcodeOf_and_funct3Of_of_masked h
    exact ⟨_, decode_sw hop h3, rfl, rfl⟩
  | lui => exact ⟨_, decode_lui (opcodeOf_of_masked h), rfl, rfl⟩
  | auipc => exact ⟨_, decode_auipc (opcodeOf_of_masked h), rfl, rfl⟩
  | jal => exact ⟨_, decode_jal (opcodeOf_of_masked h), rfl, rfl⟩

end Sys2Proof

namespace Sys2Proof.Machine

/-! ### The obligations -/

/-- Settles O6: each field of a packed word is the part put there, and an immediate in range is the sign
extension of its cut. -/
theorem decodeUnitInvertsEncodeRecord : Obligations.DecodeUnitInvertsEncodeRecord :=
  fun _ => decodeUnit_encodeRecord

/-- Settles O7: O6 on the instruction's record, which selects the instruction. -/
theorem decodeInvertsEncode : Obligations.DecodeInvertsEncode := by
  intro i hwf
  rw [decode, encode, decodeUnit_encodeRecord ((wf_record i).trans hwf), select_record]

/-- Settles O8: the decoded word has the instruction's record, and the record's packing is the word. -/
theorem encodeInvertsDecode : Obligations.EncodeInvertsDecode := fun _ i h =>
  ⟨(wf_record i).symm.trans (decodeUnit_of_decode h).2, encode_of_decode h⟩

/-- Settles O9: a decoded word is its instruction's encoding, which meets its row; and the masked bits fix
every field that is selected on. -/
theorem opcodeMapIsExact : Obligations.OpcodeMapIsExact :=
  ⟨fun _ i h => encode_of_decode h ▸ encode_and_mask i, fun _ _ => exists_decode_of_masked⟩

/-- Settles O1: the decoder evaluated on each word. -/
theorem specWordsDecodeAsWritten : Obligations.SpecWordsDecodeAsWritten :=
  ⟨by decide, by decide, by decide, by decide, by decide, by decide, by decide, by decide, by decide,
    by decide, by decide⟩

end Sys2Proof.Machine
end

section
/-! Proofs for 40_register_alu.md, 41_immediate_alu.md, 45_upper_immediate.md and 46_jump.md: the values
written by the instructions that write a register. -/

namespace Sys2Proof.Machine

/-- Settles O12: each is one register write, of the modular sum or difference. -/
theorem addAndSubWriteWrappedResults : Obligations.AddAndSubWriteWrappedResults := by
  refine ⟨fun rd rs1 rs2 s => ?add, fun rd rs1 rs2 s => ?sub⟩
  case add =>
    obtain ⟨hreg, hframe⟩ := writeRegister_frame rd (s.readReg rs1 + s.readReg rs2) s
    exact ⟨_, _, rfl, hreg, BitVec.toNat_add _ _, hframe⟩
  case sub =>
    obtain ⟨hreg, hframe⟩ := writeRegister_frame rd (s.readReg rs1 - s.readReg rs2) s
    refine ⟨_, _, rfl, hreg, ?_, hframe⟩
    have hsub : u32 (s.readReg rs1 - s.readReg rs2) =
        (2 ^ 32 - u32 (s.readReg rs2) + u32 (s.readReg rs1)) % 2 ^ 32 := BitVec.toNat_sub _ _
    have hlt : u32 (s.readReg rs2) < 2 ^ 32 := (s.readReg rs2).isLt
    omega

/-- Settles O13: each is one register write, of the bitwise operation. -/
theorem logicInstructionsWriteBitwiseResults : Obligations.LogicInstructionsWriteBitwiseResults := by
  refine ⟨fun rd rs1 rs2 s => ?and, fun rd rs1 rs2 s => ?or, fun rd rs1 rs2 s => ?xor⟩
  case and =>
    obtain ⟨hreg, hframe⟩ := writeRegister_frame rd (s.readReg rs1 &&& s.readReg rs2) s
    exact ⟨_, _, rfl, hreg, fun _ => BitVec.getLsbD_and, hframe⟩
  case or =>
    obtain ⟨hreg, hframe⟩ := writeRegister_frame rd (s.readReg rs1 ||| s.readReg rs2) s
    exact ⟨_, _, rfl, hreg, fun _ => BitVec.getLsbD_or, hframe⟩
  case xor =>
    obtain ⟨hreg, hframe⟩ := writeRegister_frame rd (s.readReg rs1 ^^^ s.readReg rs2) s
    exact ⟨_, _, rfl, hreg, fun _ => BitVec.getLsbD_xor, hframe⟩

/-- Settles O15: one register write, of the modular sum with the immediate. -/
theorem addiWritesWrappedSum : Obligations.AddiWritesWrappedSum := by
  intro rd rs1 imm s
  obtain ⟨hreg, hframe⟩ := writeRegister_frame rd (s.readReg rs1 + imm) s
  exact ⟨_, _, rfl, hreg, BitVec.toNat_add _ _, hframe⟩

/-- Settles O19: the masked bits fix the opcode, and AUIPC is one register write of pc plus immediate. -/
theorem auipcWritesPcPlusImmediate : Obligations.AuipcWritesPcPlusImmediate := by
  refine ⟨fun w hmask => decode_auipc (opcodeOf_of_masked hmask), fun rd imm s => ?_⟩
  obtain ⟨hreg, hframe⟩ := writeRegister_frame rd (pcRelative s imm) s
  exact ⟨_, _, rfl, hreg, BitVec.toNat_add _ _, hframe⟩

/-- JAL links, jumps and touches nothing else (46_jump.md R230). -/
theorem exec_jal (rd : RegIdx) (imm : Word) (s : State) :
    ∃ t, exec (.jal rd imm) s = .next t ∧ RegisterWritten rd (s.pc + 4) s t ∧ t.pc = s.pc + imm ∧
      MemoryKept s t ∧ t.status = s.status :=
  ⟨_, rfl, registerWritten_of_retire _ s rd _ rfl, retire_pc _ s, memoryKept_of_mem_eq rfl, retire_status _ s⟩

/-- Settles O20: the masked bits fix the opcode, and link and target are the modular sums. -/
theorem jalLinksAndJumps : Obligations.JalLinksAndJumps := by
  refine ⟨fun w hmask => decode_jal (opcodeOf_of_masked hmask), fun rd imm s => ?_⟩
  obtain ⟨t, hexec, hreg, hpc, hframe⟩ := exec_jal rd imm s
  exact ⟨t, _, hexec, hreg, BitVec.toNat_add _ _, by rw [hpc]; exact BitVec.toNat_add _ _, hframe⟩

end Sys2Proof.Machine
end

section
/-! Proofs for 44_branch.md: what each comparison decides. -/

namespace Sys2Proof.Machine

/-- A branch goes to pc + imm when `P` holds and to pc + 4 when `Q` does, where `P` makes its condition true
and `Q` makes it false; it keeps registers, Memory and status (R201). -/
theorem branch_of_conditions {b : Bool} {P Q : Prop} (hP : P → b = true) (hQ : Q → b = false) (imm : Word)
    (s : State) :
    (P → (branch b imm s).pc = s.pc + imm) ∧ (Q → (branch b imm s).pc = s.pc + 4) ∧
      RegistersKept s (branch b imm s) ∧ MemoryKept s (branch b imm s) ∧
      (branch b imm s).status = s.status := by
  refine ⟨fun h => ?_, fun h => ?_, registersKept_of_retire _ s rfl, memoryKept_of_mem_eq rfl, rfl⟩
  · rw [branch_pc, hP h, if_pos rfl]
  · rw [branch_pc, hQ h, if_neg Bool.false_ne_true]

/-! ### The comparisons as truth values -/

theorem equal_eq_true {a b : Word} (h : a = b) : equal a b = true := beq_iff_eq.2 h
theorem equal_eq_false {a b : Word} (h : a ≠ b) : equal a b = false := beq_eq_false_iff_ne.2 h
theorem lessSigned_eq_true {a b : Word} (h : s32 a < s32 b) : lessSigned a b = true := decide_eq_true h
theorem lessSigned_eq_false {a b : Word} (h : s32 b ≤ s32 a) : lessSigned a b = false :=
  decide_eq_false h.not_gt
theorem lessUnsigned_eq_true {a b : Word} (h : u32 a < u32 b) : lessUnsigned a b = true := decide_eq_true h
theorem lessUnsigned_eq_false {a b : Word} (h : u32 b ≤ u32 a) : lessUnsigned a b = false :=
  decide_eq_false h.not_gt

/-! ### The obligations -/

/-- Settles O21: BEQ's condition is equality and BNE's its negation. -/
theorem beqAndBneDecideOnEquality : Obligations.BeqAndBneDecideOnEquality :=
  ⟨fun _ _ imm s => ⟨_, rfl, branch_of_conditions equal_eq_true equal_eq_false imm s⟩,
    fun _ _ imm s => ⟨_, rfl, branch_of_conditions (fun h => congrArg not (equal_eq_false h))
      (fun h => congrArg not (equal_eq_true h)) imm s⟩⟩

/-- Settles O22: BLT's condition is the signed order and BGE's its negation. -/
theorem bltAndBgeDecideOnSignedOrder : Obligations.BltAndBgeDecideOnSignedOrder :=
  ⟨fun _ _ imm s => ⟨_, rfl, branch_of_conditions lessSigned_eq_true lessSigned_eq_false imm s⟩,
    fun _ _ imm s => ⟨_, rfl, branch_of_conditions (fun h => congrArg not (lessSigned_eq_false h))
      (fun h => congrArg not (lessSigned_eq_true h)) imm s⟩⟩

/-- Settles O23: BLTU's condition is the unsigned order and BGEU's its negation. -/
theorem bltuAndBgeuDecideOnUnsignedOrder : Obligations.BltuAndBgeuDecideOnUnsignedOrder :=
  ⟨fun _ _ imm s => ⟨_, rfl, branch_of_conditions lessUnsigned_eq_true lessUnsigned_eq_false imm s⟩,
    fun _ _ imm s => ⟨_, rfl, branch_of_conditions (fun h => congrArg not (lessUnsigned_eq_false h))
      (fun h => congrArg not (lessUnsigned_eq_true h)) imm s⟩⟩

end Sys2Proof.Machine
end

section
/-! Proofs for 42_load.md and 43_store.md: LW and SW in bounds and out of bounds. -/

namespace Sys2Proof.Machine

theorem exec_lw_of_fits {rd rs1 : RegIdx} {imm : Word} {s : State}
    (h : u32 (effectiveAddress s rs1 imm) + 4 ≤ s.mem.capacity) :
    exec (.lw rd rs1 imm) s = .next (writeRegister rd (s.mem.readWord (effectiveAddress s rs1 imm)) s) :=
  if_pos ((fits_iff _ _).2 h)

/-- The effect of an SW in bounds: no register, the word x[rs2] at ea, on to pc + 4 (R191). -/
def storeEffect (rs1 rs2 : RegIdx) (imm : Word) (s : State) : Effect where
  nextPc := s.pc + 4
  regWrite := none
  memWrite := some (effectiveAddress s rs1 imm, s.readReg rs2)

theorem exec_sw_of_fits {rs1 rs2 : RegIdx} {imm : Word} {s : State}
    (h : u32 (effectiveAddress s rs1 imm) + 4 ≤ s.mem.capacity) :
    exec (.sw rs1 rs2 imm) s = .next (retire (storeEffect rs1 rs2 imm s) s) :=
  if_pos ((fits_iff _ _).2 h)

theorem exec_lw_of_not_fits {rd rs1 : RegIdx} {imm : Word} {s : State}
    (h : s.mem.capacity < u32 (effectiveAddress s rs1 imm) + 4) :
    exec (.lw rd rs1 imm) s = .next (raiseFatal .memoryOutOfBounds (effectiveAddress s rs1 imm) s) :=
  if_neg fun hfits => h.not_ge ((fits_iff _ _).1 hfits)

theorem exec_sw_of_not_fits {rs1 rs2 : RegIdx} {imm : Word} {s : State}
    (h : s.mem.capacity < u32 (effectiveAddress s rs1 imm) + 4) :
    exec (.sw rs1 rs2 imm) s = .next (raiseFatal .memoryOutOfBounds (effectiveAddress s rs1 imm) s) :=
  if_neg fun hfits => h.not_ge ((fits_iff _ _).1 hfits)

/-- A fatal error changes nothing but the status: what the claims call `Faulted` (60_exceptions.md R283). -/
theorem faulted_raiseFatal (k : FatalKind) (a : Word) (s : State) : Faulted k a s (raiseFatal k a s) :=
  ⟨readReg_raiseFatal k a s, raiseFatal_mem k a s, raiseFatal_pc k a s, raiseFatal_status k a s⟩

/-! ### The obligations -/

/-- Settles O26: the masked bits fix opcode and funct3, and LW in bounds is one register write, of the word
the four bytes compose. -/
theorem lwLoadsTheWordInBounds : Obligations.LwLoadsTheWordInBounds := by
  refine ⟨fun w hmask => ?encoding, fun rd rs1 imm s => ⟨BitVec.toNat_add _ _, fun hfits => ?loads⟩⟩
  case encoding =>
    obtain ⟨hop, h3⟩ := opcodeOf_and_funct3Of_of_masked hmask
    exact decode_lw hop h3
  case loads =>
    obtain ⟨hreg, hframe⟩ := writeRegister_frame rd (s.mem.readWord (effectiveAddress s rs1 imm)) s
    exact ⟨_, _, exec_lw_of_fits hfits, hreg, wordReadComposesFourBytes _ _, hframe⟩

/-- Settles O27: the masked bits fix opcode and funct3, and SW in bounds writes one word and no register. -/
theorem swStoresTheWordInBounds : Obligations.SwStoresTheWordInBounds := by
  refine ⟨fun w hmask => ?encoding, fun rs1 rs2 imm s hwf hfits => ?stores⟩
  case encoding =>
    obtain ⟨hop, h3⟩ := opcodeOf_and_funct3Of_of_masked hmask
    exact decode_sw hop h3
  case stores =>
    obtain ⟨hinside, houtside, hcapacity⟩ := wordWriteSetsFourBytesAndNoOther s.mem
      (effectiveAddress s rs1 imm) (s.readReg rs2) hwf hfits
    refine ⟨_, exec_sw_of_fits hfits, registersKept_of_retire _ s rfl, rfl, rfl, hinside, ?_⟩
    rintro ea rfl
    exact ⟨hcapacity, houtside⟩

/-- Settles O28: out of bounds, LW and SW are `raiseFatal` at ea. -/
theorem loadAndStoreOutOfBoundsFault : Obligations.LoadAndStoreOutOfBoundsFault :=
  ⟨fun _ _ _ s h => ⟨_, exec_lw_of_not_fits h, faulted_raiseFatal _ _ s⟩,
    fun _ _ _ s h => ⟨_, exec_sw_of_not_fits h, faulted_raiseFatal _ _ s⟩⟩

end Sys2Proof.Machine
end

section
/-! Proofs for 48_fetch_execute.md and 20_memory.md section 5: the fetch, its faults, the halt word and what a
fetched instruction runs. -/

namespace Sys2Proof.Machine

/-! ### The step of a fetched word -/

/-- The halt word is no instruction, so a decoded instruction's word is not it (30_encoding.md R108). -/
theorem ne_zero_of_decode_instr {w : Word} {i : Instr} (h : decode w = .instr i) : w ≠ 0 := by
  rintro rfl
  cases decode_zero.symm.trans h

theorem step_of_decode_instr {s : State} {w : Word} {i : Instr} (hf : Fetches s w) (hd : decode w = .instr i) :
    step s = exec i s := by
  rw [step_of_fetches hf, runWord, if_neg (ne_zero_of_decode_instr hd), hd]

/-- An execution always answers a next state. -/
theorem exec_answers_next (i : Instr) (s : State) : ∃ t, exec i s = .next t := by
  obtain ⟨e, hexec, -⟩ | ⟨_, _, -, -, hexec⟩ := exec_cases i s
  · exact ⟨_, hexec⟩
  · exact ⟨_, hexec⟩

/-- At most one word is fetched from a state. -/
theorem Fetches.unique {s : State} {v w : Word} (hv : Fetches s v) (hw : Fetches s w) : v = w := by
  obtain ⟨-, -, -, hv⟩ := hv
  obtain ⟨-, -, -, hw⟩ := hw
  exact hv.symm.trans hw

theorem Fetches.running {s : State} {w : Word} (h : Fetches s w) : s.status = .running := h.1

/-- In bounds of an allowed CAPACITY the sequential advance does not wrap (10_state.md R49). -/
theorem u32_add_four {v : Word} (h : u32 v + 4 < 2 ^ 32) : u32 (v + 4) = u32 v + 4 :=
  BitVec.toNat_add_of_lt h

/-! ### The obligations -/

/-- Settles O30: the decoded word is not the halt word, so it is executed. -/
theorem stepRunsTheDecodedInstruction : Obligations.StepRunsTheDecodedInstruction :=
  fun _ _ _ => step_of_decode_instr

/-- Settles O29: the SW leaves pc + 4 in the pc and its word there, in bounds and aligned. -/
theorem storeIsSeenByTheNextFetch : Obligations.StoreIsSeenByTheNextFetch := by
  intro s w rs1 rs2 imm hf hwf hd hea hbound hcap
  have hpc : u32 (s.pc + 4) = u32 s.pc + 4 := u32_add_four (by omega)
  have hfits : u32 (s.pc + 4) + 4 ≤ s.mem.capacity := by omega
  have ⟨hrun, _, haligned, _⟩ := hf
  refine ⟨_, (step_of_decode_instr hf hd).trans (exec_sw_of_fits (hea ▸ hfits)), hrun, ?_, ?_, ?_⟩
  · rw [retire_mem, applyMemWrite_capacity]
    exact hfits
  · change u32 (s.pc + 4) % 4 = 0
    omega
  · change (s.mem.writeWord (effectiveAddress s rs1 imm) (s.readReg rs2)).readWord (s.pc + 4) = _
    rw [hea, readWord_writeWord_self hwf ((fits_iff _ _).2 hfits)]

theorem step_of_fetch_outOfBounds {s : State} (hs : s.status = .running)
    (h : s.mem.capacity < u32 s.pc + 4) : step s = .next (raiseFatal .memoryOutOfBounds s.pc s) :=
  step_of_fetch_fatal hs ((fetch_eq_fatal_iff s _ _).2 ⟨rfl, .inl ⟨rfl, h⟩⟩)

theorem step_of_fetch_misaligned {s : State} (hs : s.status = .running) (h : u32 s.pc + 4 ≤ s.mem.capacity)
    (h4 : u32 s.pc % 4 ≠ 0) : step s = .next (raiseFatal .alignmentViolation s.pc s) :=
  step_of_fetch_fatal hs ((fetch_eq_fatal_iff s _ _).2 ⟨rfl, .inr ⟨rfl, h, h4⟩⟩)

/-- Settles O31: the bounds check is the fetch's first, and past both checks the word is read. -/
theorem fetchOutOfBoundsFaults : Obligations.FetchOutOfBoundsFaults :=
  ⟨fun s hs h => ⟨_, step_of_fetch_outOfBounds hs h, faulted_raiseFatal _ _ s⟩,
    fun s h h4 => (fetch_eq_word_iff s _).2 ⟨h, h4, rfl⟩⟩

/-- Settles O32: the alignment check is the fetch's second; a JAL completes and the step after it fetches. -/
theorem misalignedFetchFaults : Obligations.MisalignedFetchFaults := by
  refine ⟨fun s hs h h4 => ⟨_, step_of_fetch_misaligned hs h h4, faulted_raiseFatal _ _ s⟩,
    fun s w rd imm hf hd h4 hfits => ?_⟩
  obtain ⟨t, hexec, hreg, hpc, hmem, hstatus⟩ := exec_jal rd imm s
  obtain ⟨hcapacity, -⟩ := hmem
  rw [← hpc] at h4 hfits ⊢
  exact ⟨t, _, (step_of_decode_instr hf hd).trans hexec, hreg, rfl,
    step_of_fetch_misaligned (hstatus.trans hf.running) (hcapacity ▸ hfits) h4, faulted_raiseFatal _ _ t⟩

/-- Settles O33: the zero word halts, and a report needs a fetched word that is not zero. -/
theorem haltWordHalts : Obligations.HaltWordHalts := by
  intro s hf
  refine ⟨halt s, (step_of_fetches hf).trans (if_pos rfl), halt_status s, halt_pc s, halt_mem s,
    readReg_halt s, ?_⟩
  cases hr : s.report with
  | none => rfl
  | some r =>
    obtain ⟨hfetched, hne, -⟩ := report_cases hr
    exact absurd (hfetched.unique hf) hne

/-- Settles O43: a fetch fault, the halt word and an unsupported word answer a next state, and so does every
execution. -/
theorem everyStepAnswersANextState : Obligations.EveryStepAnswersANextState := by
  refine ⟨fun s => ?_, fun s => step_of_not_running⟩
  by_cases hs : s.status = .running
  · obtain ⟨k, -, hstep⟩ | ⟨-, hstep⟩ | ⟨w, i, -, -, -, hstep⟩ | ⟨w, -, -, -, hstep⟩ := step_running_cases hs
    · exact ⟨_, hstep⟩
    · exact ⟨_, hstep⟩
    · obtain ⟨t, hexec⟩ := exec_answers_next i s
      exact ⟨t, hstep.trans hexec⟩
    · exact ⟨_, hstep⟩
  · exact ⟨s, step_of_not_running hs⟩

end Sys2Proof.Machine
end

section
/-! Proofs for 47_unsupported.md: the words that select no instruction, their report and the no-op they
are. -/

namespace Sys2Proof

/-! ### Words that select no instruction -/

theorem decode_unsupportedOpcode {w : Word}
    (h : opcodeOf w ∉ ([0x33, 0x13, 0x03, 0x23, 0x63, 0x37, 0x17, 0x6F] : List Opcode)) :
    decode w = .unsupportedOpcode (opcodeOf w) := by
  rw [decode, (Machine.shapeFollowsTheOpcodeAlone.2 w).1 h, select]

/-- The pairs (funct3, funct7) of no row of opcode 0x33 (40_register_alu.md R140, D6). -/
theorem selectR_unsupported {f3 : Funct3} {f7 : Funct7} (h : (f3, f7) ∉
      ([(0x0, 0x00), (0x0, 0x20), (0x7, 0x00), (0x6, 0x00), (0x4, 0x00)] : List (Funct3 × Funct7)))
    (op : Opcode) (rd rs1 rs2 : RegIdx) : selectR op rd f3 rs1 rs2 f7 = .unsupportedInstruction op := by
  simp only [List.mem_cons, List.not_mem_nil, Prod.mk.injEq, or_false, not_or] at h
  obtain ⟨hadd, hsub, hand, hor, hxor⟩ := h
  rw [selectR, if_neg hadd, if_neg hsub, if_neg hand, if_neg hor, if_neg hxor]

/-- The five cases of R107: a supported opcode with funct fields that select no instruction. -/
theorem decode_unsupportedInstruction {w : Word}
    (h : opcodeOf w = 0x33 ∧ (funct3Of w, funct7Of w) ∉
        ([(0x0, 0x00), (0x0, 0x20), (0x7, 0x00), (0x6, 0x00), (0x4, 0x00)] : List (Funct3 × Funct7)) ∨
      opcodeOf w = 0x13 ∧ funct3Of w ∈ ([0x1, 0x4, 0x5, 0x6, 0x7] : List Funct3) ∨
      opcodeOf w = 0x03 ∧ funct3Of w ≠ 0x2 ∨ opcodeOf w = 0x23 ∧ funct3Of w ≠ 0x2 ∨
      opcodeOf w = 0x63 ∧ funct3Of w ∈ ([0x2, 0x3] : List Funct3)) :
    ∃ op, decode w = .unsupportedInstruction op := by
  obtain ⟨hop, h3⟩ | ⟨hop, h3⟩ | ⟨hop, h3⟩ | ⟨hop, h3⟩ | ⟨hop, h3⟩ := h
  · exact ⟨_, (decode_r hop rfl rfl).trans (selectR_unsupported h3 ..)⟩
  · have hdisjoint : ∀ f3 ∈ ([0x1, 0x4, 0x5, 0x6, 0x7] : List Funct3),
        f3 ∉ ([0x0, 0x2, 0x3] : List Funct3) := by decide
    exact ⟨_, decode_i_alu_unsupported hop (hdisjoint _ h3)⟩
  · exact ⟨_, (decode_load hop).trans (if_neg h3)⟩
  · exact ⟨_, (decode_s hop).trans (if_neg h3)⟩
  · exact ⟨_, (decode_b hop rfl).trans (selectB_unsupported (by simpa using h3) ..)⟩

end Sys2Proof

namespace Sys2Proof.Machine

/-! ### The report and the no-op -/

/-- A fetched word that is not the halt word reaches the decode unit. -/
theorem decodedWord_of_fetches {s : State} {w : Word} (hf : Fetches s w) (h0 : w ≠ 0) :
    s.decodedWord = some w := by
  obtain ⟨hs, hfetch⟩ := (fetches_iff s w).1 hf
  simp only [State.decodedWord, hs, hfetch, if_neg h0]

theorem report_of_unsupportedOpcode {s : State} {w : Word} {op : Opcode} (hf : Fetches s w) (h0 : w ≠ 0)
    (hd : decode w = .unsupportedOpcode op) :
    s.report = some { error := .unsupportedOpcode, pc := s.pc, word := w } := by
  simp only [State.report, decodedWord_of_fetches hf h0, hd]

theorem report_of_unsupportedInstruction {s : State} {w : Word} {op : Opcode} (hf : Fetches s w) (h0 : w ≠ 0)
    (hd : decode w = .unsupportedInstruction op) :
    s.report = some { error := .unsupportedInstruction, pc := s.pc, word := w } := by
  simp only [State.report, decodedWord_of_fetches hf h0, hd]

/-- A word that is neither the halt word nor an instruction only advances the pc by 4 (R240, R241). -/
theorem step_of_no_instr {s : State} {w : Word} (hf : Fetches s w) (h0 : w ≠ 0)
    (hd : ∀ i, decode w ≠ .instr i) :
    ∃ t, step s = .next t ∧ RegistersKept s t ∧ MemoryKept s t ∧ t.pc = s.pc + 4 ∧ t.status = .running := by
  obtain ⟨k, hfatal, -⟩ | ⟨hzero, -⟩ | ⟨v, i, hv, -, hinstr, -⟩ | ⟨v, -, -, -, hstep⟩ :=
    step_running_cases hf.running
  · cases hfatal.symm.trans ((fetches_iff s w).1 hf).2
  · exact absurd (hf.unique hzero) h0
  · exact absurd (hf.unique hv ▸ hinstr) (hd i)
  · exact ⟨_, hstep, registersKept_of_retire _ s rfl, memoryKept_of_mem_eq rfl, rfl, hf.running⟩

/-! ### The obligations -/

/-- Settles O34: the decode unit gives the unsupported result, which is reported and skipped. -/
theorem unsupportedOpcodeIsReportedAndSkipped : Obligations.UnsupportedOpcodeIsReportedAndSkipped := by
  intro s w hf h0 hop
  have hd : decode w = .unsupportedOpcode (opcodeOf w) := decode_unsupportedOpcode hop
  exact ⟨report_of_unsupportedOpcode hf h0 hd, step_of_no_instr hf h0 (by simp [hd])⟩

/-- Settles O35: no row is selected, which is reported and skipped; the word is not the halt word, whose
opcode is outside the eight. -/
theorem unsupportedInstructionIsReportedAndSkipped :
    Obligations.UnsupportedInstructionIsReportedAndSkipped := by
  intro s w hf hfields
  obtain ⟨op, hd⟩ := decode_unsupportedInstruction hfields
  have h0 : w ≠ 0 := by
    rintro rfl
    cases decode_zero.symm.trans hd
  exact ⟨report_of_unsupportedInstruction hf h0 hd, step_of_no_instr hf h0 (by simp [hd])⟩

end Sys2Proof.Machine
end

section
/-! Proofs for 10_state.md, 48_fetch_execute.md and 60_exceptions.md: everything a step of a run can do, said
once, and what follows of Memory, of the pc and of the end of a run. -/

/-! ### The operands of a decoded word -/

namespace Sys2Proof

/-- A B record has opcode 0x63 and the word's own immediate. -/
theorem of_decodeUnit_b {w : Word} {op : Opcode} {f3 : Funct3} {rs1 rs2 : RegIdx} {imm : Word}
    (h : decodeUnit w = .b op f3 rs1 rs2 imm) : opcodeOf w = 0x63 ∧ imm = immB w := by
  unfold decodeUnit at h
  split_ifs at h with _ _ _ h63
  cases h
  exact ⟨h63, rfl⟩

/-- A J record has opcode 0x6F and the word's own immediate. -/
theorem of_decodeUnit_j {w : Word} {op : Opcode} {rd : RegIdx} {imm : Word}
    (h : decodeUnit w = .j op rd imm) : opcodeOf w = 0x6F ∧ imm = immJ w := by
  unfold decodeUnit at h
  split_ifs at h with _ _ _ _ _ h6F
  cases h
  exact ⟨h6F, rfl⟩

/-- An S record has the word's own base register and immediate. -/
theorem of_decodeUnit_s {w : Word} {op : Opcode} {f3 : Funct3} {rs1 rs2 : RegIdx} {imm : Word}
    (h : decodeUnit w = .s op f3 rs1 rs2 imm) : rs1 = rs1Of w ∧ imm = immS w := by
  unfold decodeUnit at h
  split_ifs at h
  cases h
  exact ⟨rfl, rfl⟩

end Sys2Proof

namespace Sys2Proof.Machine

/-! ### The data access of an instruction -/

/-- The address an instruction accesses Memory at: the effective address of LW and SW (R180, R190). -/
def accessAddress (s : State) : Instr → Option Word
  | .lw _ rs1 imm | .sw rs1 _ imm => some (effectiveAddress s rs1 imm)
  | _ => none

theorem accessAddress_eq_some_iff {s : State} {i : Instr} {a : Word} : accessAddress s i = some a ↔
    (∃ rd rs1 imm, i = .lw rd rs1 imm ∧ a = effectiveAddress s rs1 imm) ∨
      ∃ rs1 rs2 imm, i = .sw rs1 rs2 imm ∧ a = effectiveAddress s rs1 imm := by
  cases i with
  | lw | sw => simp [accessAddress, eq_comm]
  | _ => simp [accessAddress]

/-- The address of an LW or SW, in the form `exec_cases` names the two. -/
theorem accessAddress_of_load_or_store {s : State} {i : Instr} {rs1 : RegIdx} {imm : Word}
    (h : (∃ rd, i = .lw rd rs1 imm) ∨ ∃ rs2, i = .sw rs1 rs2 imm) :
    accessAddress s i = some (effectiveAddress s rs1 imm) := by
  obtain ⟨rd, rfl⟩ | ⟨rs2, rfl⟩ := h
  · rfl
  · rfl

/-! ### The ends of a cycle -/

/-- What an effect of a cycle that executed `w` may be: it goes on at pc + 4 or at the target of a branch or
JAL, and its memory write, if any, is the one of an SW (R40, R47). -/
structure EffectOf (s : State) (w : Word) (e : Effect) : Prop where
  nextPc : e.nextPc = s.pc + 4 ∨ (opcodeOf w = 0x63 ∧ e.nextPc = s.pc + immB w) ∨
    (opcodeOf w = 0x6F ∧ e.nextPc = s.pc + immJ w)
  memWrite : e.memWrite = none ∨ ∃ rs1 rs2 imm, decode w = .instr (.sw rs1 rs2 imm) ∧
    e.memWrite = some (effectiveAddress s rs1 imm, s.readReg rs2)

/-- The four ways a cycle of a run can end, with the state each leaves: a failed fetch, the halt word, a data
access out of bounds, and an executed word, whose access, if it makes one, was in bounds. -/
inductive CycleEnd (s : State) : State → Prop
  | badFetch (k : FatalKind) (hfetch : fetch s = .fatal k s.pc) : CycleEnd s (raiseFatal k s.pc s)
  | haltWord (hf : Fetches s 0) : CycleEnd s (halt s)
  | badAccess (w : Word) (i : Instr) (ea : Word) (hf : Fetches s w) (hd : decode w = .instr i)
      (hea : accessAddress s i = some ea) (hbound : s.mem.capacity < u32 ea + 4) :
      CycleEnd s (raiseFatal .memoryOutOfBounds ea s)
  | executed (w : Word) (e : Effect) (hf : Fetches s w) (h0 : w ≠ 0) (he : EffectOf s w e)
      (hbound : ∀ i ea, decode w = .instr i → accessAddress s i = some ea → u32 ea + 4 ≤ s.mem.capacity) :
      CycleEnd s (retire e s)

/-- The next pc of a decoded instruction, in terms of the word's own immediate: only the six branches and JAL
have another one than pc + 4. -/
theorem nextPc_of_decode {w : Word} {i : Instr} {s : State} {pc : Word} (hd : decode w = .instr i)
    (h : pc = s.pc + 4 ∨ ∃ rd rs1 rs2 imm, (i = .beq rs1 rs2 imm ∨ i = .bne rs1 rs2 imm ∨
      i = .blt rs1 rs2 imm ∨ i = .bge rs1 rs2 imm ∨ i = .bltu rs1 rs2 imm ∨ i = .bgeu rs1 rs2 imm ∨
      i = .jal rd imm) ∧ pc = s.pc + imm) :
    pc = s.pc + 4 ∨ (opcodeOf w = 0x63 ∧ pc = s.pc + immB w) ∨ (opcodeOf w = 0x6F ∧ pc = s.pc + immJ w) := by
  obtain h | ⟨rd, rs1, rs2, imm, hi, hpc⟩ := h
  · exact .inl h
  · obtain ⟨hrec, -⟩ := decodeUnit_of_decode hd
    right
    obtain rfl | rfl | rfl | rfl | rfl | rfl | rfl := hi
    case inr.inr.inr.inr.inr.inr =>
      obtain ⟨hop, rfl⟩ := of_decodeUnit_j hrec
      exact .inr ⟨hop, hpc⟩
    all_goals
      obtain ⟨hop, rfl⟩ := of_decodeUnit_b hrec
      exact .inl ⟨hop, hpc⟩

/-- Every step of a run ends its cycle in one of the four ways. -/
theorem cycleEnd_of_step {s t : State} (hs : s.status = .running) (h : step s = .next t) : CycleEnd s t := by
  obtain ⟨k, hfetch, hstep⟩ | ⟨hf, hstep⟩ | ⟨w, i, hf, h0, hd, hstep⟩ | ⟨w, hf, h0, hd, hstep⟩ :=
    step_running_cases hs
  · cases hstep.symm.trans h
    exact .badFetch k hfetch
  · cases hstep.symm.trans h
    exact .haltWord hf
  · obtain ⟨e, hexec, -, hmem, hpc, haccess⟩ | ⟨rs1, imm, hi, hbound, hexec⟩ := exec_cases i s
    · cases (hstep.trans hexec).symm.trans h
      refine .executed w e hf h0 ⟨nextPc_of_decode hd hpc, hmem.imp_right ?_⟩ fun j ea hj hea => ?_
      · rintro ⟨rs1, rs2, imm, rfl, -, hwrite⟩
        exact ⟨rs1, rs2, imm, hd, hwrite⟩
      · cases hd.symm.trans hj
        obtain ⟨rs1, imm, hi, hfits⟩ := haccess ((accessAddress_eq_some_iff.1 hea).imp
          (fun ⟨rd, rs1, imm, hi, _⟩ => ⟨rd, rs1, imm, hi⟩) fun ⟨rs1, rs2, imm, hi, _⟩ => ⟨rs1, rs2, imm, hi⟩)
        cases (accessAddress_of_load_or_store hi).symm.trans hea
        exact (fits_iff _ _).1 hfits
    · cases (hstep.trans hexec).symm.trans h
      exact .badAccess w i _ hf hd (accessAddress_of_load_or_store hi) ((fits_eq_false_iff _ _).1 hbound)
  · cases hstep.symm.trans h
    exact .executed w _ hf h0 ⟨.inl rfl, .inl rfl⟩ fun i _ hi _ => absurd hi (hd i)

/-- A step keeps the CAPACITY (00_scope.md R9). -/
theorem capacity_of_step {s t : State} (h : step s = .next t) : t.mem.capacity = s.mem.capacity := by
  by_cases hs : s.status = .running
  · cases cycleEnd_of_step hs h with
    | executed w e => exact applyMemWrite_capacity _ _
    | _ => rfl
  · cases (step_of_not_running hs).symm.trans h
    rfl

/-! ### The obligations -/

/-- Settles O38: only an executed SW writes Memory, and outside its four bytes a word write changes nothing. -/
theorem onlySwChangesMemory : Obligations.OnlySwChangesMemory := by
  intro s t a h hne
  by_cases hs : s.status = .running
  case neg =>
    cases (step_of_not_running hs).symm.trans h
    exact absurd rfl hne
  cases cycleEnd_of_step hs h with
  | badFetch | haltWord | badAccess => exact absurd rfl hne
  | executed w e hf h0 he =>
    rw [retire_mem] at hne
    obtain hnone | ⟨rs1, rs2, imm, hd, hwrite⟩ := he.memWrite
    · rw [hnone] at hne
      exact absurd rfl hne
    · rw [hwrite] at hne
      obtain ⟨hrec, -⟩ := decodeUnit_of_decode hd
      obtain ⟨rfl, rfl⟩ := of_decodeUnit_s hrec
      refine ⟨w, hf, opcodeMapIsExact.1 w _ hd, ?_⟩
      by_contra hout
      exact hne (readByte_writeWord_outside s.mem _ _ (by omega))

/-- Settles O39: the next pc of the executed word's effect. -/
theorem pcAdvancesByFourUnlessTransferred : Obligations.PcAdvancesByFourUnlessTransferred := by
  intro s t w hf h hrun
  cases cycleEnd_of_step hf.running h with
  | badFetch | haltWord | badAccess => cases hrun
  | executed v e hv h0 he =>
    obtain rfl := hf.unique hv
    exact he.nextPc

/-- Settles O40: pc + 4 is at most CAPACITY, which is below 2^32; at CAPACITY the next fetch fails. -/
theorem sequentialAdvanceDoesNotWrap : Obligations.SequentialAdvanceDoesNotWrap := by
  intro s t w hinv hf h hrun hpc
  obtain ⟨-, -, hcap⟩ := hinv.capacity
  have ⟨_, hbound, _, _⟩ := hf
  have hnext : u32 t.pc = u32 s.pc + 4 := hpc ▸ u32_add_four (by omega)
  refine ⟨hnext, fun hlast => ?_⟩
  have hpast : t.mem.capacity < u32 t.pc + 4 := by
    rw [capacity_of_step h]
    omega
  exact fetchOutOfBoundsFaults.1 t hrun hpast

/-- Settles O41: a status of Faulted is left by `raiseFatal` alone, after a failed fetch or a failed access. -/
theorem fatalErrorsArePrecise : Obligations.FatalErrorsArePrecise := by
  intro s t k a hs h hfault
  cases cycleEnd_of_step hs h with
  | badFetch k' =>
    cases hfault
    exact ⟨readReg_raiseFatal _ _ s, rfl, rfl, .inl rfl⟩
  | haltWord => cases hfault
  | badAccess w i ea hf hd hea =>
    cases hfault
    exact ⟨readReg_raiseFatal _ _ s, rfl, rfl, .inr ⟨w, i, hf, hd, rfl, accessAddress_eq_some_iff.1 hea⟩⟩
  | executed => cases hs.symm.trans hfault

/-- A data access fails exactly as R263 lists it: an LW or an SW with ea + 4 above CAPACITY. -/
theorem accessFails_iff {s : State} {w : Word} :
    (∃ i ea, decode w = .instr i ∧ accessAddress s i = some ea ∧ s.mem.capacity < u32 ea + 4) ↔
    (∃ rd rs1 imm, decode w = .instr (.lw rd rs1 imm) ∧
      s.mem.capacity < u32 (effectiveAddress s rs1 imm) + 4) ∨
    ∃ rs1 rs2 imm, decode w = .instr (.sw rs1 rs2 imm) ∧
      s.mem.capacity < u32 (effectiveAddress s rs1 imm) + 4 := by
  constructor
  · rintro ⟨i, ea, hd, hea, hbound⟩
    obtain ⟨rd, rs1, imm, rfl, rfl⟩ | ⟨rs1, rs2, imm, rfl, rfl⟩ := accessAddress_eq_some_iff.1 hea
    · exact .inl ⟨rd, rs1, imm, hd, hbound⟩
    · exact .inr ⟨rs1, rs2, imm, hd, hbound⟩
  · rintro (⟨rd, rs1, imm, hd, hbound⟩ | ⟨rs1, rs2, imm, hd, hbound⟩)
    · exact ⟨_, _, hd, rfl, hbound⟩
    · exact ⟨_, _, hd, rfl, hbound⟩

/-- Settles O42: of the four ends of a cycle the executed word's is the only one that stays Running, and it
excludes each of the causes listed. -/
theorem runEndsExactlyAtHaltOrFatalError : Obligations.RunEndsExactlyAtHaltOrFatalError := by
  intro s t hs h
  rw [← accessFails_iff]
  cases cycleEnd_of_step hs h with
  | badFetch k hfetch =>
    refine iff_of_true (by simp) ?_
    obtain ⟨-, ⟨-, hbound⟩ | ⟨-, -, h4⟩⟩ := (fetch_eq_fatal_iff s _ _).1 hfetch
    · exact .inl hbound
    · exact .inr (.inl h4)
  | haltWord hf =>
    obtain ⟨-, -, -, hw⟩ := hf
    exact iff_of_true (by simp) (.inr (.inr (.inl hw)))
  | badAccess w i ea hf hd hea hbound =>
    obtain ⟨-, -, -, rfl⟩ := hf
    exact iff_of_true (by simp) (.inr (.inr (.inr ⟨i, ea, hd, hea, hbound⟩)))
  | executed w e hf h0 he haccess =>
    obtain ⟨-, hbound, h4, rfl⟩ := hf
    refine iff_of_false (fun hne => hne hs) ?_
    rintro (hout | hmis | hzero | ⟨i, ea, hd, hea, hout⟩)
    · exact hout.not_ge hbound
    · exact hmis h4
    · exact h0 hzero
    · exact hout.not_ge (haccess i ea hd hea)

end Sys2Proof.Machine
end

section
/-! Proofs for the machine's invariant: construction establishes it, and every step keeps it. -/

namespace Sys2Proof.Machine

/-! ### Even addresses -/

theorem u32_immB_mod_two (w : Word) : u32 (immB w) % 2 = 0 :=
  (u32_mod_two_eq_zero_iff _).2 (getLsbD_zero_sext_append_zero _)

theorem u32_immJ_mod_two (w : Word) : u32 (immJ w) % 2 = 0 :=
  (u32_mod_two_eq_zero_iff _).2 (getLsbD_zero_sext_append_zero _)

/-- Sums modulo 2^32 of even words are even. -/
theorem u32_add_mod_two {a b : Word} (ha : u32 a % 2 = 0) (hb : u32 b % 2 = 0) : u32 (a + b) % 2 = 0 := by
  have hsum : u32 (a + b) = (u32 a + u32 b) % 2 ^ 32 := BitVec.toNat_add a b
  omega

/-- Every next pc of an executed word is even when the pc is (30_encoding.md R97, R99). -/
theorem EffectOf.nextPc_even {s : State} {w : Word} {e : Effect} (he : EffectOf s w e)
    (heven : u32 s.pc % 2 = 0) : u32 e.nextPc % 2 = 0 := by
  obtain hpc | ⟨-, hpc⟩ | ⟨-, hpc⟩ := he.nextPc
  · rw [hpc]
    exact u32_add_mod_two heven (by decide)
  · rw [hpc]
    exact u32_add_mod_two heven (u32_immB_mod_two w)
  · rw [hpc]
    exact u32_add_mod_two heven (u32_immJ_mod_two w)

/-! ### The invariant through a cycle's ends -/

/-- Ending a cycle of a run at an even pc keeps the invariant. -/
theorem inv_retire {s : State} {e : Effect} (hinv : s.Inv) (hs : s.status = .running)
    (heven : u32 e.nextPc % 2 = 0) : (retire e s).Inv where
  zero := readReg_retire_zero e s
  memory := applyMemWrite_wf hinv.memory e.memWrite
  capacity := (applyMemWrite_capacity s.mem e.memWrite).symm ▸ hinv.capacity
  pcEven := heven
  status := by rw [State.statusCoherent, retire_status, hs]; trivial

/-- A state that differs in its status alone meets the invariant when the new status is coherent. -/
theorem inv_of_status {s : State} {st : Status} (hinv : s.Inv) (h : { s with status := st }.statusCoherent) :
    { s with status := st }.Inv where
  zero := hinv.zero
  memory := hinv.memory
  capacity := hinv.capacity
  pcEven := hinv.pcEven
  status := h

/-- A failed fetch records the pc, and the pc as the kind says (R253, R254). -/
theorem statusCoherent_of_badFetch {s : State} {k : FatalKind} (h : fetch s = .fatal k s.pc) :
    (raiseFatal k s.pc s).statusCoherent := by
  obtain ⟨-, ⟨rfl, hbound⟩ | ⟨rfl, hbound, h4⟩⟩ := (fetch_eq_fatal_iff s _ _).1 h
  · exact (fits_eq_false_iff _ _).2 hbound
  · exact ⟨rfl, (fits_iff _ _).2 hbound, h4⟩

/-- Settles O44: each of the four ends of a cycle keeps the invariant. -/
theorem stepKeepsTheInvariant : Obligations.StepKeepsTheInvariant := by
  intro s t hinv h
  by_cases hs : s.status = .running
  case neg =>
    cases (step_of_not_running hs).symm.trans h
    exact hinv
  cases cycleEnd_of_step hs h with
  | badFetch k hfetch => exact inv_of_status hinv (statusCoherent_of_badFetch hfetch)
  | haltWord hf =>
    obtain ⟨-, hbound, h4, -⟩ := hf
    exact inv_of_status hinv ⟨(fits_iff _ _).2 hbound, h4⟩
  | badAccess w i ea hf hd hea hbound => exact inv_of_status hinv ((fits_eq_false_iff _ _).2 hbound)
  | executed w e hf h0 he => exact inv_retire hinv hs (he.nextPc_even hinv.pcEven)

/-! ### Construction -/

theorem inv_construct {c : Config} (h : capacityAllowed c.capacity) : (State.construct c).Inv where
  zero := construct_readReg_zero c
  memory := construct_wf c
  capacity := h
  pcEven := rfl
  status := rfl

/-- Settles O45: construction meets each clause, and reset is a construction of an allowed CAPACITY. -/
theorem constructionMeetsTheInvariant : Obligations.ConstructionMeetsTheInvariant :=
  ⟨fun _ => inv_construct, inv_construct (c := Config.reference) (by decide)⟩

/-- Settles O46: each field of the constructed state, by its law. -/
theorem constructionValues : Obligations.ConstructionValues :=
  ⟨fun c => ⟨construct_readReg_zero c, construct_readReg c, construct_pc c, fun _ => rfl,
    construct_capacity c, construct_status c⟩, rfl, _, rfl⟩

end Sys2Proof.Machine
end

section
/-! Proofs for 70_reset_and_hazards.md: the host's requests. -/

namespace Sys2Proof.Machine

/-! ### Acceptance (R315, R316) -/

theorem acceptsHost_of_not_running {s : State} (h : s.status ≠ .running) : s.acceptsHost = true :=
  decide_eq_true h

theorem acceptsHost_of_running {s : State} (h : s.status = .running) : s.acceptsHost = false :=
  decide_eq_false (not_not.2 h)

/-- An accepted load answers the state with the bytes written, exactly when they fit. -/
theorem loadBytes_of_accepted {s : State} (h : s.status ≠ .running) (offset : Nat) (bytes : List Byte) :
    loadBytes offset bytes s =
      if offset + bytes.length ≤ s.mem.capacity then .ok { s with mem := s.mem.writeBytes offset bytes }
      else .memoryOutOfBounds := by
  simp only [loadBytes, acceptsHost_of_not_running h, Bool.true_eq_false, if_false]

theorem loadBytes_of_running {s : State} (h : s.status = .running) (offset : Nat) (bytes : List Byte) :
    loadBytes offset bytes s = .runInProgress :=
  if_pos (acceptsHost_of_running h)

/-- Whatever state a load answers is the one with the bytes written. -/
theorem eq_of_loadBytes_ok {s t : State} {offset : Nat} {bytes : List Byte}
    (h : loadBytes offset bytes s = .ok t) : t = { s with mem := s.mem.writeBytes offset bytes } := by
  unfold loadBytes at h
  split_ifs at h
  cases h
  rfl

theorem requestRun_of_accepted {s : State} (h : s.status ≠ .running) : requestRun s = .ok (startRun s) := by
  simp only [requestRun, acceptsHost_of_not_running h, Bool.true_eq_false, if_false]

theorem requestRun_of_running {s : State} (h : s.status = .running) : requestRun s = .runInProgress :=
  if_pos (acceptsHost_of_running h)

/-- Whatever state a run request answers is the one with the run started. -/
theorem eq_of_requestRun_ok {s t : State} (h : requestRun s = .ok t) : t = startRun s := by
  unfold requestRun at h
  split_ifs at h
  cases h
  rfl

/-! ### The invariant through the requests -/

/-- Coherence of the status looks at Memory only through its CAPACITY. -/
theorem statusCoherent_of_capacity_eq {s : State} {m : Memory} (h : m.capacity = s.mem.capacity)
    (hs : s.statusCoherent) : { s with mem := m }.statusCoherent := by
  have hfits : ∀ a, m.fits a = s.mem.fits a := fun a => by rw [Memory.fits, Memory.fits, h]
  simpa only [State.statusCoherent, hfits] using hs

theorem inv_writeBytes {s : State} (hinv : s.Inv) (offset : Nat) (bytes : List Byte) :
    { s with mem := s.mem.writeBytes offset bytes }.Inv where
  zero := hinv.zero
  memory := writeBytes_wf bytes hinv.memory offset
  capacity := (writeBytes_capacity bytes s.mem offset).symm ▸ hinv.capacity
  pcEven := hinv.pcEven
  status := statusCoherent_of_capacity_eq (writeBytes_capacity bytes s.mem offset) hinv.status

theorem inv_startRun {s : State} (hinv : s.Inv) : (startRun s).Inv where
  zero := hinv.zero
  memory := hinv.memory
  capacity := hinv.capacity
  pcEven := rfl
  status := trivial

/-! ### The obligations -/

/-- Settles O47: an accepted load that fits is one run of byte writes. -/
theorem loadBytesWritesVerbatimOrNothing : Obligations.LoadBytesWritesVerbatimOrNothing := by
  intro s offset bytes
  refine ⟨fun hs hwf hfits => ?fits, fun hs hover => ?overflows,
    fun hs => loadBytes_of_running hs offset bytes⟩
  case fits =>
    exact ⟨_, (loadBytes_of_accepted hs offset bytes).trans (if_pos hfits),
      fun _ => readByte_writeBytes_inside bytes hwf hfits, fun _ => readByte_writeBytes_outside bytes s.mem,
      writeBytes_capacity bytes s.mem offset, fun _ => rfl, rfl, rfl⟩
  case overflows => exact (loadBytes_of_accepted hs offset bytes).trans (if_neg hover.not_ge)

/-- Settles O48: an accepted request is `startRun`. -/
theorem runStartsAtZeroWithStateKept : Obligations.RunStartsAtZeroWithStateKept := fun s =>
  ⟨fun hs => ⟨startRun s, requestRun_of_accepted hs, startRun_status s, startRun_pc s, startRun_mem s,
    readReg_startRun s⟩, requestRun_of_running⟩

/-- Settles O49: an accepted inspection answers the part of the state it names. -/
theorem inspectionAnswersTheState : Obligations.InspectionAnswersTheState := by
  intro s hs
  have hacc : s.acceptsHost ≠ false := by simp [acceptsHost_of_not_running hs]
  have hreg (r : RegIdx) : inspectRegister r s = .ok (s.readReg r) := if_neg hacc
  exact ⟨hreg, fun a ha => (if_neg hacc).trans (if_pos ha), fun a ha => (if_neg hacc).trans (if_neg ha.not_gt),
    if_neg hacc, if_neg hacc, fun hinv => (hreg 0).trans (congrArg _ hinv.zero)⟩

/-- Settles O50: a load keeps the canonical form and the CAPACITY, and a started run is at pc 0. -/
theorem hostRequestsKeepTheInvariant : Obligations.HostRequestsKeepTheInvariant := by
  refine ⟨fun s t offset bytes hinv h => ?load, fun s t hinv h => ?run⟩
  case load =>
    rw [eq_of_loadBytes_ok h]
    exact inv_writeBytes hinv offset bytes
  case run =>
    rw [eq_of_requestRun_ok h]
    exact inv_startRun hinv

end Sys2Proof.Machine
end

section
/-! Proofs for 48_fetch_execute.md section 3 and 60_exceptions.md: how a run ends, and the codes of the
errors. -/

namespace Sys2Proof.Machine

/-! ### Cycles with fuel -/

/-- A run that has ended stays as it is, whatever the fuel. -/
theorem runCycles_of_not_running {s : State} (h : s.status ≠ .running) (fuel : Nat) :
    runCycles fuel s = some s := by
  cases fuel with
  | zero => exact if_neg h
  | succ => exact if_neg h

/-- A unit of fuel is one step. -/
theorem runCycles_succ_of_step {s t : State} (hs : s.status = .running) (h : step s = .next t) (fuel : Nat) :
    runCycles (fuel + 1) s = runCycles fuel t := by
  rw [runCycles, if_pos hs, h]

/-- More fuel changes nothing once the run has ended. -/
theorem runCycles_add {fuel : Nat} {s t : State} (h : runCycles fuel s = some t) (more : Nat) :
    runCycles (fuel + more) s = some t := by
  induction fuel generalizing s with
  | zero =>
    have hs : s.status ≠ .running := fun hs => by simp [runCycles, hs] at h
    rw [runCycles_of_not_running hs] at h ⊢
    exact h
  | succ fuel ih =>
    by_cases hs : s.status = .running
    · obtain ⟨u, hstep⟩ := everyStepAnswersANextState.1 s
      rw [runCycles_succ_of_step hs hstep] at h
      rw [Nat.add_right_comm, runCycles_succ_of_step hs hstep]
      exact ih h
    · rw [runCycles_of_not_running hs] at h ⊢
      exact h

/-! ### The ways a run ends -/

/-- After a step of a run the status is Running, Halted or Faulted. -/
theorem status_of_step {s t : State} (hs : s.status = .running) (h : step s = .next t) :
    t.status = .running ∨ t.status = .halted ∨ ∃ k a, t.status = .faulted k a := by
  cases cycleEnd_of_step hs h with
  | badFetch k => exact .inr (.inr ⟨k, _, rfl⟩)
  | haltWord => exact .inr (.inl rfl)
  | badAccess _ _ ea => exact .inr (.inr ⟨_, ea, rfl⟩)
  | executed => exact .inl hs

/-- A run ends in Halted or Faulted (R263). -/
theorem status_of_runCycles {fuel : Nat} {s t : State} (hs : s.status = .running)
    (h : runCycles fuel s = some t) : t.status = .halted ∨ ∃ k a, t.status = .faulted k a := by
  induction fuel generalizing s with
  | zero => simp [runCycles, hs] at h
  | succ fuel ih =>
    obtain ⟨u, hstep⟩ := everyStepAnswersANextState.1 s
    rw [runCycles_succ_of_step hs hstep] at h
    obtain hu | hended := status_of_step hs hstep
    · exact ih hu h
    · have hu : u.status ≠ .running := by
        rintro hu
        simp [hu] at hended
      rw [runCycles_of_not_running hu] at h
      cases h
      exact hended

/-- A cycle that makes a report leaves the run going (R282). -/
theorem step_of_report {s : State} {r : Report} (h : s.report = some r) :
    ∃ t, step s = .next t ∧ t.status = .running := by
  obtain ⟨hf, h0, -, herror⟩ := report_cases h
  have hd : ∀ i, decode r.word ≠ .instr i := by
    intro i hi
    obtain ⟨-, op, hop⟩ | ⟨-, op, hop⟩ := herror
    · cases hop.symm.trans hi
    · cases hop.symm.trans hi
  obtain ⟨t, hstep, -, -, -, hrun⟩ := step_of_no_instr hf h0 hd
  exact ⟨t, hstep, hrun⟩

/-! ### The obligations -/

/-- Settles O51: the run's last step leaves Halted or Faulted, whose exit signals and recorded addresses are
read off. -/
theorem endedRunPresentsItsExitSignal : Obligations.EndedRunPresentsItsExitSignal := by
  intro fuel s t hs h
  refine ⟨?_, runCycles_add h⟩
  obtain hhalt | ⟨k, a, hfault⟩ := status_of_runCycles hs h
  · exact .inl ⟨hhalt, by rw [hhalt, exitSignal_halted]⟩
  · cases k with
    | memoryOutOfBounds => exact .inr (.inl ⟨a, hfault, by rw [hfault]; rfl, by rw [hfault]; rfl⟩)
    | alignmentViolation => exact .inr (.inr ⟨a, hfault, by rw [hfault]; rfl, by rw [hfault]; rfl⟩)

/-- Settles O52: a reporting cycle is a no-op of a run that goes on, so a cycle that ends in Faulted makes no
report. -/
theorem errorCodesFollowTheirClass : Obligations.ErrorCodesFollowTheirClass := by
  refine ⟨⟨rfl, rfl, rfl, rfl⟩, fun s r hr => ?reported, fun s t k a hs h hfault => ?fatal⟩
  case reported =>
    obtain ⟨t, hstep, hrun⟩ := step_of_report hr
    exact ⟨t, hstep, hrun, by rw [hrun, exitSignal_running]⟩
  case fatal =>
    refine ⟨by rw [hfault, exitSignal_faulted], ?_⟩
    cases hr : s.report with
    | none => rfl
    | some r =>
      obtain ⟨u, hstep, hrun⟩ := step_of_report hr
      cases hstep.symm.trans h
      cases hrun.symm.trans hfault

end Sys2Proof.Machine
end
